-- ==== Sys2Proof/Word.lean ====
section
/-! DEFINITION. The word types of the command set (spec/00_scope.md R10, spec/30_encoding.md R70). -/

namespace Sys2Proof

/-- A message byte, a selector, a table index, or an entry of RROM (R9). -/
abbrev Byte := BitVec 8

/-- A parameter register or a response word (R10). -/
abbrev Word := BitVec 32

/-- A command word, one 64-bit unit with bit 0 the least significant (R54, R70). -/
abbrev CmdWord := BitVec 64

end Sys2Proof
end

