-- ==== Sys2Proof/Syntax.lean ====
section
/-! DEFINITION. The ten commands of spec/30_encoding.md R74, with the operands of R72 and R73. -/

namespace Sys2Proof

/-- One constructor per row of the opcode table. Each operand has exactly the type the encoding gives it (R73), so
every value of this type is a command some word encodes. -/
inductive Instr where
  /-- `SETPOLY imm32` (R101). -/
  | setpoly (imm32 : Word)
  /-- `SETINIT imm32` (R102). -/
  | setinit (imm32 : Word)
  /-- `SETXOR imm32` (R103). -/
  | setxor (imm32 : Word)
  /-- `CONFIGURE [refin] [refout] [lut]`: the bits RI, RO and UL (R104). -/
  | configure (ri ro ul : Bool)
  /-- `START` (R161). -/
  | start
  /-- `DATA imm8` (R164). -/
  | data (imm8 : Byte)
  /-- `FINISH` (R171). -/
  | finish
  /-- `READCFG imm8`: the selector (R190). -/
  | readcfg (sel : Byte)
  /-- `READLUT imm8`: the table index (R149). -/
  | readlut (idx : Byte)
  /-- `REFLECT imm32` with BM = 0, `REFLECT.B imm32` with BM = 1 (R126). -/
  | reflect (bm : Bool) (imm32 : Word)
  deriving DecidableEq, Repr

end Sys2Proof
end

