-- ==== Sys2Proof/AsmSyntax.lean ====
section
/-! DEFINITION. The lines of an assembler program (spec/30_encoding.md R79 to R81), before their range checks. -/

namespace Sys2Proof

/-- The words of CONFIGURE's flag list (R79). -/
inductive Flag where
  | refin
  | refout
  | lut
  deriving DecidableEq, Repr

/-- One line: a command, a pseudo-instruction or the `.word64` directive. Operands are the integers as written, so a
line can be out of range; `WellFormed.lean` says which are not. -/
inductive AsmLine where
  | setpoly (imm32 : Nat)
  | setinit (imm32 : Nat)
  | setxor (imm32 : Nat)
  | configure (flags : List Flag)
  | start
  | data (imm8 : Nat)
  | finish
  | readcfg (imm8 : Nat)
  | readlut (imm8 : Nat)
  | reflect (imm32 : Nat)
  | reflectB (imm32 : Nat)
  /-- `.word64 imm64`: any word, legal or not (R79). -/
  | word64 (imm64 : Nat)
  /-- `CONFIG poly, init, xorout [, flags]` (R80). -/
  | config (poly init xorout : Nat) (flags : List Flag)
  /-- `CALC b0, ..., b(n-1)` (R81). -/
  | calc (bytes : List Nat)
  deriving DecidableEq, Repr

end Sys2Proof
end

