-- ==== Sys2Proof/WellFormed.lean ====
section
/-! DEFINITION. Which terms are well formed. A command (`Instr`) always is: its operand types admit exactly what the
encoding admits (spec/30_encoding.md R72, R73). An assembler line is, when its operands are in range and its flag list
names each flag at most once (R79). -/

namespace Sys2Proof

/-- An imm32 is an integer from 0 to 0xFFFFFFFF (R79). -/
def imm32Ok (n : Nat) : Bool := n < 2 ^ 32

/-- An imm8 is an integer from 0 to 0xFF (R79). -/
def imm8Ok (n : Nat) : Bool := n < 2 ^ 8

/-- The operand of `.word64` is a 64-bit value (R79). -/
def imm64Ok (n : Nat) : Bool := n < 2 ^ 64

/-- A flag list names each flag at most once, in any order (R79). -/
def flagsOk (fs : List Flag) : Bool := decide fs.Nodup

/-- The assembler refuses an operand out of its range (R79). -/
def AsmLine.wf : AsmLine → Bool
  | .setpoly n => imm32Ok n
  | .setinit n => imm32Ok n
  | .setxor n => imm32Ok n
  | .configure fs => flagsOk fs
  | .start => true
  | .data n => imm8Ok n
  | .finish => true
  | .readcfg n => imm8Ok n
  | .readlut n => imm8Ok n
  | .reflect n => imm32Ok n
  | .reflectB n => imm32Ok n
  | .word64 n => imm64Ok n
  | .config p i x fs => imm32Ok p && imm32Ok i && imm32Ok x && flagsOk fs
  | .calc bs => bs.all imm8Ok

end Sys2Proof
end

