-- ==== Sys2Proof/Decode.lean ====
section
/-! DEFINITION. The command encoding (spec/30_encoding.md R70 to R78): the opcode table, the decoder, total on every
64-bit word, and the encoder, which the same table's rows describe. -/

namespace Sys2Proof

/-- Why a word is no command. -/
inductive DecodeError where
  /-- OPC is one of the 246 reserved opcodes (R76). -/
  | illegalOpcode
  /-- OPC is defined and a reserved bit of the word is 1 (R77). -/
  | reservedNonzero
  deriving DecidableEq, Repr

/-! ### The fields of a word (R71, R73) -/

/-- OPC = cw[63:56]. -/
def opcField (cw : CmdWord) : Byte := cw.extractLsb' 56 8

/-- imm32 = cw[31:0]. -/
def imm32Field (cw : CmdWord) : Word := cw.extractLsb' 0 32

/-- imm8 = cw[7:0]. -/
def imm8Field (cw : CmdWord) : Byte := cw.extractLsb' 0 8

/-- A single bit of the word: 1 means true (R73). -/
def bitField (cw : CmdWord) (k : Nat) : Bool := cw.getLsbD k

/-! ### The opcode table (R74) -/

/-- The five formats (R72). -/
inductive Format where
  | Z
  | V
  | B
  | F
  | R
  deriving DecidableEq, Repr

/-- Which bits of a word a format reserves or fixes: all but its operand fields (R72). -/
def Format.mask : Format → CmdWord
  | .Z => 0xFFFFFFFFFFFFFFFF
  | .V => 0xFFFFFFFF00000000
  | .B => 0xFFFFFFFFFFFFFF00
  | .F => 0xFFFFFFF8FFFFFFFF
  | .R => 0xFFFFFFFE00000000

/-- One row of the opcode map. -/
structure Row where
  opc : Byte
  mnemonic : String
  format : Format
  pattern : CmdWord
  mask : CmdWord
  read : CmdWord → Instr

/-- The opcode map, row by row (R74). `read` takes the fields of the row's format (R72, R73). -/
def opcodeTable : List Row :=
  [ ⟨0x01, "SETPOLY", .V, 0x0100000000000000, 0xFFFFFFFF00000000, fun cw => .setpoly (imm32Field cw)⟩,
    ⟨0x02, "SETINIT", .V, 0x0200000000000000, 0xFFFFFFFF00000000, fun cw => .setinit (imm32Field cw)⟩,
    ⟨0x03, "SETXOR", .V, 0x0300000000000000, 0xFFFFFFFF00000000, fun cw => .setxor (imm32Field cw)⟩,
    ⟨0x04, "CONFIGURE", .F, 0x0400000000000000, 0xFFFFFFF8FFFFFFFF,
      fun cw => .configure (bitField cw 32) (bitField cw 33) (bitField cw 34)⟩,
    ⟨0x10, "START", .Z, 0x1000000000000000, 0xFFFFFFFFFFFFFFFF, fun _ => .start⟩,
    ⟨0x11, "DATA", .B, 0x1100000000000000, 0xFFFFFFFFFFFFFF00, fun cw => .data (imm8Field cw)⟩,
    ⟨0x12, "FINISH", .Z, 0x1200000000000000, 0xFFFFFFFFFFFFFFFF, fun _ => .finish⟩,
    ⟨0x20, "READCFG", .B, 0x2000000000000000, 0xFFFFFFFFFFFFFF00, fun cw => .readcfg (imm8Field cw)⟩,
    ⟨0x21, "READLUT", .B, 0x2100000000000000, 0xFFFFFFFFFFFFFF00, fun cw => .readlut (imm8Field cw)⟩,
    ⟨0x22, "REFLECT", .R, 0x2200000000000000, 0xFFFFFFFE00000000,
      fun cw => .reflect (bitField cw 32) (imm32Field cw)⟩ ]

/-- Decoding, the pseudocode of R75: first the opcode (R76), then the reserved bits (R77), then the fields. It reads
no state. -/
def decode (cw : CmdWord) : Except DecodeError Instr :=
  match opcodeTable.find? (fun r => r.opc == opcField cw) with
  | none => .error .illegalOpcode
  | some r => if cw &&& r.mask = r.pattern then .ok (r.read cw) else .error .reservedNonzero

/-! ### The encoder -/

/-- A word from its four fields, `{OPC, RSV, CTL, OPND}` with RSV zero (R71). -/
def mkWord (opc ctl : Byte) (opnd : Word) : CmdWord := opc ++ (0 : BitVec 16) ++ ctl ++ opnd

/-- One control bit at position k of CTL (R72). -/
def ctlBit (b : Bool) (k : Nat) : Byte := if b then (1 : Byte) <<< k else 0

/-- The word of a command (R72, R74, R79). -/
def encode : Instr → CmdWord
  | .setpoly v => mkWord 0x01 0 v
  | .setinit v => mkWord 0x02 0 v
  | .setxor v => mkWord 0x03 0 v
  | .configure ri ro ul => mkWord 0x04 (ctlBit ri 0 ||| ctlBit ro 1 ||| ctlBit ul 2) 0
  | .start => mkWord 0x10 0 0
  | .data b => mkWord 0x11 0 (b.setWidth 32)
  | .finish => mkWord 0x12 0 0
  | .readcfg b => mkWord 0x20 0 (b.setWidth 32)
  | .readlut b => mkWord 0x21 0 (b.setWidth 32)
  | .reflect bm v => mkWord 0x22 (ctlBit bm 0) v

/-- The row of the opcode table a command belongs to, by its opcode. -/
def Instr.opc : Instr → Byte
  | .setpoly _ => 0x01
  | .setinit _ => 0x02
  | .setxor _ => 0x03
  | .configure _ _ _ => 0x04
  | .start => 0x10
  | .data _ => 0x11
  | .finish => 0x12
  | .readcfg _ => 0x20
  | .readlut _ => 0x21
  | .reflect _ _ => 0x22

/-- The decoder on an instruction given as the opcode table numbers its bits. A command is one 64-bit unit (R54, R70),
so bit k of the number is cw[k]; the bits above `nbits` are 0, and a number of more than 64 bits is no command word. -/
def decodeTableWord (nbits w : Nat) : Option Instr :=
  let v := w % 2 ^ nbits
  if v < 2 ^ 64 then
    match decode (BitVec.ofNat 64 v) with
    | .ok i => some i
    | .error _ => none
  else none

end Sys2Proof
end

