-- ==== Sys2Proof/Config.lean ====
section
/-! DEFINITION. What an implementation fixes: the register width W (spec/00_scope.md R8, spec/10_state.md R37). -/

namespace Sys2Proof

/-- The width of an instance. There is no fourth one: an instance with any other W does not exist (R8, R109). -/
inductive Width where
  | w8
  | w16
  | w32
  deriving DecidableEq, Repr

/-- W, in bits. -/
def Width.bits : Width → Nat
  | .w8 => 8
  | .w16 => 16
  | .w32 => 32

/-- Building an instance from a number: every W outside 8, 16 and 32 is turned away (R109). -/
def Width.ofBits? (n : Nat) : Option Width :=
  if n = 8 then some .w8 else if n = 16 then some .w16 else if n = 32 then some .w32 else none

/-- DESIGN CHOICE (log entry 1), safe: the instance that `State.reset` stands for. Every other definition takes the
width from the state, and every statement ranges over all three. -/
def Config.width : Width := .w32

end Sys2Proof
end

