-- ==== Sys2Proof/Machine/State.lean ====
section
/-! DEFINITION. The state of one engine instance (spec/10_state.md) and the state right after reset
(spec/70_reset_and_hazards.md R240). -/

namespace Sys2Proof.Machine

/-- What the host does to the block, one move at a time (spec/70_reset_and_hazards.md R256). -/
inductive HostInput where
  /-- A 64-bit word offered on the command channel: any of the 2^64 words. -/
  | command (cw : CmdWord)
  /-- The reset input, asserted and released: a step of its own (R243). A command that reset abandons leaves nothing,
  so its word is not among the moves. -/
  | reset
  /-- The host takes the oldest response word still waiting (R36, R247). A host that takes it no earlier than the next
  command needs makes no such move (R256). DESIGN CHOICE (log entry 3). -/
  | takeResponse
  deriving DecidableEq, Repr

/-- The causes a command can raise (spec/60_exceptions.md R211). They are recorded in the state, and the machine goes on
(R220): none of them is a `Fault`. -/
inductive ErrorCode where
  | illegalOpcode
  | reservedNonzero
  | notConfigured
  | noSession
  | sessionActive
  | badSelector
  | noTable
  deriving DecidableEq, Repr

/-- One engine instance. Every register, flag and table of spec/10_state.md stands here under its own name. -/
structure State where
  /-- W, the instance's constant (R8, R37); no step changes it. DESIGN CHOICE (log entry 1). -/
  width : Width
  /-- POLY_S, the raw staged polynomial (R23). -/
  polyS : Word
  /-- INIT_S, the raw staged initial value (R23). -/
  initS : Word
  /-- XOR_S, the raw staged output mask (R23). -/
  xorS : Word
  /-- POLY, the committed polynomial (R24). -/
  poly : Word
  /-- INIT, the committed initial value (R25). -/
  init : Word
  /-- XOROUT, the committed output mask (R26). -/
  xorout : Word
  /-- REFIN (R27). -/
  refin : Bool
  /-- REFOUT (R27). -/
  refout : Bool
  /-- USE_LUT (R27). -/
  useLut : Bool
  /-- CONFIGURED (R28). -/
  configured : Bool
  /-- LUT: 256 entries, each a value or `none` (R29). -/
  lut : Vector (Option Word) 256
  /-- LUT_VALID (R29). -/
  lutValid : Bool
  /-- ACC: a value, or `none` outside a session (R31). -/
  acc : Option Word
  /-- ACTIVE (R32). -/
  active : Bool
  /-- FAULTED (R33). -/
  faulted : Bool
  /-- ERR_CODE, 8 bits (R33). -/
  errCode : Byte
  /-- ERR_CMD, 64 bits (R33). -/
  errCmd : CmdWord
  /-- RESP: the words emitted, oldest first (R36). -/
  resp : List Word
  /-- How many words at the end of RESP the host has not taken yet. DESIGN CHOICE (log entry 3). -/
  waiting : Nat
  /-- The host's coming moves, oldest first. DESIGN CHOICE (log entry 2). -/
  inputs : List HostInput
  deriving DecidableEq, Repr

/-- The stops of the model: reads of an absent value, which spec/00_scope.md R15 asks a model to fault on. Both are safe,
and no state that meets the invariant of R35 reaches either. -/
inductive Fault where
  /-- DATA or FINISH read ACC while it is `none` (R15, R31). Safe. -/
  | absentAcc
  /-- DATA on the LUT path or READLUT read a LUT entry that is `none` (R15, R29). Safe. -/
  | absentLutEntry
  deriving DecidableEq, Repr

/-- What the model turns away. -/
inductive Refusal where
  /-- Raised by an arm of `exec` whose instruction has no meaning yet; no arm does. Safe. -/
  | notModelled (mnemonic : String)
  deriving DecidableEq, Repr

/-- What a command ends in. -/
abbrev Result := Host.Outcome State Fault Refusal

/-- A table of absent entries (R29). -/
def emptyLut : Vector (Option Word) 256 := Vector.replicate 256 none

/-- The instance of width `w` right after reset (R240, R241), at the beginning of a run: RESP empty
(spec/95_test_vectors.md, conventions) and no host move pending (log entry 2). -/
def State.resetAt (w : Width) : State where
  width := w
  polyS := 0
  initS := 0
  xorS := 0
  poly := 0
  init := 0
  xorout := 0
  refin := false
  refout := false
  useLut := false
  configured := false
  lut := emptyLut
  lutValid := false
  acc := none
  active := false
  faulted := false
  errCode := 0x00
  errCmd := 0
  resp := []
  waiting := 0
  inputs := []

/-- The machine right after reset. -/
def State.reset : State := State.resetAt Config.width

end Sys2Proof.Machine
end

