-- ==== Sys2Proof/Machine/Divider.lean ====
section
/-! DEFINITION. The polynomial divider and the lookup-table generator (spec/42_divider_lut.md), the two update paths of
DATA (spec/43_calculate.md R166, R167) and the checksum as a pure function (R177).

Shifts are taken in 32-bit words. A bit that leaves a 32-bit word stands at or above W, so the `trunc_W` that every rule
applies afterwards would drop it anyway (R12; DEDUCED, safe; log entry 7). -/

namespace Sys2Proof.Machine

/-- One divider round (R142): if the top bit c[W-1] is set, shift left and XOR with POLY; else just shift left; then mask
to W bits. -/
def divRound (w : Width) (poly c : Word) : Word :=
  if c.getLsbD (w.bits - 1) then trunc w ((c <<< 1) ^^^ poly) else trunc w (c <<< 1)

/-- `k` rounds in sequence. -/
def rounds (w : Width) (poly : Word) : Nat → Word → Word
  | 0, c => c
  | k + 1, c => rounds w poly k (divRound w poly c)

/-- Div8(c): eight rounds in sequence (R143). -/
def div8 (w : Width) (poly c : Word) : Word := rounds w poly 8 c

/-- A byte placed in the top 8 bits of a W-bit register: `b << (W-8)` (R145, R166). -/
def topByte (w : Width) (b : Byte) : Word := zextByte b <<< (w.bits - 8)

/-- BuildEntry(POLY, i) (R145). -/
def buildEntry (w : Width) (poly : Word) (i : Byte) : Word := div8 w poly (trunc w (topByte w i))

/-- BuildLUT (R145): all 256 entries. -/
def buildLut (w : Width) (poly : Word) : Vector (Option Word) 256 :=
  ⟨((List.range 256).map fun i => some (buildEntry w poly (BitVec.ofNat 8 i))).toArray, by simp⟩

/-- LUT[i], which may be absent (R13, R29). -/
def lutAt (lut : Vector (Option Word) 256) (i : Byte) : Option Word := lut[i.toNat]'i.isLt

/-- DirectUpdate(acc, temp) (R166). -/
def directUpdate (w : Width) (poly acc : Word) (temp : Byte) : Word :=
  div8 w poly (trunc w (acc ^^^ topByte w temp))

/-- The index of the LUT path, `(acc >> (W-8)) XOR temp` (R167). It is below 256 for every acc below 2^W; for a wider
value, which no run reaches, its low byte is taken (DESIGN CHOICE, log entry 5). -/
def lutIndex (w : Width) (acc : Word) (temp : Byte) : Byte := (acc >>> (w.bits - 8)).setWidth 8 ^^^ temp

/-- LutUpdate(acc, temp) with the entry it read (R167). -/
def lutUpdate (w : Width) (acc entry : Word) : Word := trunc w ((acc <<< 8) ^^^ entry)

/-- One message byte of `Calc` (R177): the byte is reflected as R120 says, without the table. -/
def checksumByte (w : Width) (poly : Word) (refin : Bool) (acc : Word) (b : Byte) : Word :=
  let temp := if refin then reflect 8 (zextByte b) else zextByte b
  div8 w poly (trunc w (acc ^^^ (temp <<< (w.bits - 8))))

/-- The register of `Calc` after all bytes, in order (R177). -/
def checksumAcc (w : Width) (poly init : Word) (refin : Bool) (bytes : List Byte) : Word :=
  bytes.foldl (checksumByte w poly refin) init

/-- Calc(W, POLY, INIT, REFIN, REFOUT, XOROUT, data): the checksum as a pure function (R177). -/
def checksum (w : Width) (poly init : Word) (refin refout : Bool) (xorout : Word) (bytes : List Byte) : Word :=
  let acc := checksumAcc w poly init refin bytes
  let r := if refout then reflect w.bits acc else acc
  trunc w (r ^^^ xorout)

end Sys2Proof.Machine
end

