-- ==== Sys2Proof/Machine/Flags.lean ====
section
/-! DEFINITION. The status flags as the host reads them: the derived mode (spec/10_state.md R34), the FLAGS and STATUS words
and the selector map of READCFG (spec/44_diagnostics.md R191, R192), and the numeric error codes
(spec/60_exceptions.md R211). The block has no condition codes (R38). -/

namespace Sys2Proof.Machine

/-- The four modes (R34). -/
inductive Mode where
  | unconfigured
  | ready
  | active
  | faulted
  deriving DecidableEq, Repr

/-- The mode, derived from the flags in the order of R34. -/
def State.mode (s : State) : Mode :=
  if s.faulted then .faulted else if s.active then .active else if s.configured then .ready else .unconfigured

/-- The number of an error code (R211). -/
def ErrorCode.byte : ErrorCode → Byte
  | .illegalOpcode => 0x01
  | .reservedNonzero => 0x02
  | .notConfigured => 0x03
  | .noSession => 0x04
  | .sessionActive => 0x05
  | .badSelector => 0x06
  | .noTable => 0x07

/-- A flag at bit k of a word whose other bits are 0. -/
def flagBit (b : Bool) (k : Nat) : Word := if b then (1 : Word) <<< k else 0

/-- FLAGS, selector 4 (R191). -/
def flagsWord (s : State) : Word := flagBit s.refin 0 ||| flagBit s.refout 1 ||| flagBit s.useLut 2

/-- STATUS, selector 5 (R192). -/
def statusWord (s : State) : Word :=
  flagBit s.configured 0 ||| flagBit s.active 1 ||| flagBit s.lutValid 2 ||| flagBit s.faulted 3 |||
    (zextByte s.errCode <<< 8)

/-- The word of a selector, or `none` for the reserved selectors 11 to 255 (R191). -/
def cfgWord (s : State) (sel : Byte) : Option Word :=
  match sel.toNat with
  | 0 => some (BitVec.ofNat 32 s.width.bits)
  | 1 => some s.poly
  | 2 => some s.init
  | 3 => some s.xorout
  | 4 => some (flagsWord s)
  | 5 => some (statusWord s)
  | 6 => some (s.errCmd.extractLsb' 32 32)
  | 7 => some (s.errCmd.extractLsb' 0 32)
  | 8 => some s.polyS
  | 9 => some s.initS
  | 10 => some s.xorS
  | _ => none

end Sys2Proof.Machine
end

