-- ==== Sys2Proof/Machine/Ops.lean ====
section
/-! DEFINITION. The named operations over the state: register writes, `emit` (spec/00_scope.md R13), the error entry
(spec/60_exceptions.md R220), the checks before a command's effect (R219, R221), the commit of a configuration, and reset
(spec/70_reset_and_hazards.md R240). -/

namespace Sys2Proof.Machine

/-! ### Responses -/

/-- `emit(v)`: append a word to the response channel (R13, R36); it waits there until the host takes it (R247). -/
def emit (v : Word) (s : State) : State := { s with resp := s.resp ++ [v], waiting := s.waiting + 1 }

/-- The host takes the oldest waiting word; with none waiting there is nothing to take (log entry 3). -/
def takeResponse (s : State) : State := { s with waiting := s.waiting - 1 }

/-- The host has taken every response word (R256, its duty). -/
def responsesTaken (s : State) : State := { s with waiting := 0 }

/-- The block accepts a command word only while no response word waits (R247). -/
abbrev State.AcceptsCommand (s : State) : Prop := s.waiting = 0

/-! ### Errors -/

/-- ErrorEntry(code, cw) (R220): the state is as before the command but for the error record. -/
def errorEntry (code : ErrorCode) (cw : CmdWord) (s : State) : State :=
  { s with faulted := true, errCode := code.byte, errCmd := cw }

/-- `raise Error(code)`: taking the error. In FAULTED mode nothing is recorded and the word is discarded (R221). -/
def raiseError (code : ErrorCode) (cw : CmdWord) (s : State) : State :=
  if s.faulted then s else errorEntry code cw s

/-- The first error of a command's checks, in the order the command lists them (R219). -/
def firstError : List (Bool × ErrorCode) → Option ErrorCode
  | [] => none
  | (bad, code) :: rest => if bad then some code else firstError rest

/-- A command's run: discarded in FAULTED mode (R221); else the first of its checks that fails raises its error (R219,
R220); else its effect. -/
def runChecked (cw : CmdWord) (checks : List (Bool × ErrorCode)) (s : State) (effect : Result) : Result :=
  if s.faulted then .next s
  else match firstError checks with
    | some code => .next (raiseError code cw s)
    | none => effect

/-! ### Construction -/

/-- The commit of CONFIGURE (R105): mask the staged values, set the flags, build or drop the table. -/
def commit (ri ro ul : Bool) (s : State) : State :=
  { s with
    poly := trunc s.width s.polyS
    init := trunc s.width s.initS
    xorout := trunc s.width s.xorS
    refin := ri
    refout := ro
    useLut := ul
    lut := if ul then buildLut s.width (trunc s.width s.polyS) else emptyLut
    lutValid := ul
    configured := true }

/-! ### Sessions -/

/-- START's effect (R162): ACC takes the committed INIT. -/
def openSession (s : State) : State := { s with acc := some s.init, active := true }

/-- The new value of ACC for a value of `temp` (R168): the LUT path or the direct path; `none` where the LUT path reads
an absent entry. -/
def updatedAcc (s : State) (acc : Word) (temp : Byte) : Option Word :=
  if s.useLut then (lutAt s.lut (lutIndex s.width acc temp)).map (lutUpdate s.width acc)
  else some (directUpdate s.width s.poly acc temp)

/-- DATA's effect (R168). Reading an absent value faults (R15). -/
def feedByte (b : Byte) (s : State) : Result :=
  match s.acc with
  | none => .fault .absentAcc
  | some acc =>
    match updatedAcc s acc (inputByte s.refin b) with
    | none => .fault .absentLutEntry
    | some v => .next { s with acc := some v }

/-- FINISH's effect (R172): emit the checksum, then close the session. Reading an absent ACC faults (R15). -/
def closeSession (s : State) : Result :=
  match s.acc with
  | none => .fault .absentAcc
  | some acc =>
    .next { emit (trunc s.width (outputValue s.width s.refout acc ^^^ s.xorout)) s with acc := none, active := false }

/-! ### Reset -/

/-- Reset (R240): every row of the state takes its reset value, whatever it was; the response words the host has taken
stay in the log and those still waiting are lost (R36); the width and the host's later moves are not the block's to
change (R37, R256). -/
def resetFrom (s : State) : State :=
  { State.resetAt s.width with resp := s.resp.take (s.resp.length - s.waiting), inputs := s.inputs }

end Sys2Proof.Machine
end

