-- ==== Sys2Proof/Machine/Calculation.lean ====
section
/-! DEFINITION. The calculation commands (spec/43_calculate.md). -/

namespace Sys2Proof.Machine

/-- START (R162, R163). -/
def execStart (s : State) : Result :=
  runChecked (encode .start) [(!s.configured, .notConfigured), (s.active, .sessionActive)] s (.next (openSession s))

/-- DATA (R168): one message byte. -/
def execData (imm8 : Byte) (s : State) : Result :=
  runChecked (encode (.data imm8)) [(!s.configured, .notConfigured), (!s.active, .noSession)] s (feedByte imm8 s)

/-- FINISH (R172, R173): emit the checksum and close the session. -/
def execFinish (s : State) : Result :=
  runChecked (encode .finish) [(!s.configured, .notConfigured), (!s.active, .noSession)] s (closeSession s)

end Sys2Proof.Machine
end

