-- ==== Sys2Proof/Machine/Construction.lean ====
section
/-! DEFINITION. The construction commands (spec/40_construction.md). -/

namespace Sys2Proof.Machine

/-- SETPOLY (R101): POLY_S ← imm32, unmasked. -/
def execSetpoly (imm32 : Word) (s : State) : Result :=
  runChecked (encode (.setpoly imm32)) [] s (.next { s with polyS := imm32 })

/-- SETINIT (R102): INIT_S ← imm32, unmasked. -/
def execSetinit (imm32 : Word) (s : State) : Result :=
  runChecked (encode (.setinit imm32)) [] s (.next { s with initS := imm32 })

/-- SETXOR (R103): XOR_S ← imm32, unmasked. -/
def execSetxor (imm32 : Word) (s : State) : Result :=
  runChecked (encode (.setxor imm32)) [] s (.next { s with xorS := imm32 })

/-- CONFIGURE (R105), refused inside a session (R107). -/
def execConfigure (ri ro ul : Bool) (s : State) : Result :=
  runChecked (encode (.configure ri ro ul)) [(s.active, .sessionActive)] s (.next (commit ri ro ul s))

end Sys2Proof.Machine
end

