-- ==== Sys2Proof/Machine/Observation.lean ====
section
/-! DEFINITION. The observation commands: READCFG (spec/44_diagnostics.md), READLUT (spec/42_divider_lut.md R150) and REFLECT
(spec/41_reflection.md R127). -/

namespace Sys2Proof.Machine

/-- READCFG (R193). A selector from 0 to 10 is executed in every mode, FAULTED included (R194); a reserved selector raises
BAD_SELECTOR, or is discarded in FAULTED mode. -/
def execReadcfg (sel : Byte) (s : State) : Result :=
  match cfgWord s sel with
  | some v => .next (emit v s)
  | none => .next (raiseError .badSelector (encode (.readcfg sel)) s)

/-- READLUT (R150). Reading an absent entry faults (R15). -/
def execReadlut (idx : Byte) (s : State) : Result :=
  runChecked (encode (.readlut idx)) [(!s.configured, .notConfigured), (!s.lutValid, .noTable)] s
    (match lutAt s.lut idx with
     | some v => .next (emit v s)
     | none => .fault .absentLutEntry)

/-- REFLECT and REFLECT.B (R127). -/
def execReflect (bm : Bool) (imm32 : Word) (s : State) : Result :=
  runChecked (encode (.reflect bm imm32)) [] s (.next (emit (reflectOperand s.width bm imm32) s))

end Sys2Proof.Machine
end

