-- ==== Sys2Proof/Machine/Dispatch.lean ====
section
/-! DEFINITION. One arm per command: each calls its meaning. -/

namespace Sys2Proof.Machine

def exec (i : Instr) (s : State) : Host.Outcome State Fault Refusal :=
  match i with
  | .setpoly imm32 => Sys2Proof.Machine.execSetpoly imm32 s
  | .setinit imm32 => Sys2Proof.Machine.execSetinit imm32 s
  | .setxor imm32 => Sys2Proof.Machine.execSetxor imm32 s
  | .configure ri ro ul => Sys2Proof.Machine.execConfigure ri ro ul s
  | .start => Sys2Proof.Machine.execStart s
  | .data imm8 => Sys2Proof.Machine.execData imm8 s
  | .finish => Sys2Proof.Machine.execFinish s
  | .readcfg sel => Sys2Proof.Machine.execReadcfg sel s
  | .readlut idx => Sys2Proof.Machine.execReadlut idx s
  | .reflect bm imm32 => Sys2Proof.Machine.execReflect bm imm32 s

end Sys2Proof.Machine
end

