-- ==== Sys2Proof/Machine/Accept.lean ====
section
/-! DEFINITION. Accepting one command word (spec/60_exceptions.md R221), a list of them (spec/70_reset_and_hazards.md R257),
and one move of the host (R256). -/

namespace Sys2Proof.Machine

/-- The error a word that is no command raises (R212, R213). -/
def decodeErrorCode : DecodeError → ErrorCode
  | .illegalOpcode => .illegalOpcode
  | .reservedNonzero => .reservedNonzero

/-- Step(cw) (R221): decode and run the command's rule; a word that is no command raises its error, and is discarded in
FAULTED mode. -/
def acceptWord (cw : CmdWord) (s : State) : Result :=
  match decode cw with
  | .ok i => exec i s
  | .error e => .next (raiseError (decodeErrorCode e) cw s)

/-- The steps of a list of words in order (R59, R257). Before each word is accepted the host takes the response that waits
(R247, R256). -/
def acceptWords : List CmdWord → State → Result
  | [], s => .next s
  | cw :: rest, s =>
    match acceptWord cw (responsesTaken s) with
    | .next t => acceptWords rest t
    | .fault r => .fault r
    | .refused r => .refused r

/-- A program's run (R257): reset, then the steps of its words in order. What is observed of it is the next state's RESP and
the state itself; the run is faulted if FAULTED = 1 in it. -/
def runProgram (w : Width) (words : List CmdWord) : Result := acceptWords words (State.resetAt w)

/-- A command word is offered and the moves after it are `rest` (R247). The block accepts it only while no response waits.
While one does it is not ready: the word stays offered, and what comes next is the host's taking of the response, which is its
duty (R256). A host that never takes it is not modelled (log entry 3). -/
def meetCommand (cw : CmdWord) (rest : List HostInput) (s : State) : Result :=
  if s.AcceptsCommand then acceptWord cw { s with inputs := rest } else .next (takeResponse s)

/-- The oldest move of the host that the block has not met yet; with none the block is idle, and every piece of state is
kept (R230). -/
def nextInput (s : State) : Result :=
  match s.inputs with
  | [] => .next s
  | .command cw :: rest => meetCommand cw rest s
  | .reset :: rest => .next (resetFrom { s with inputs := rest })
  | .takeResponse :: rest => .next (takeResponse { s with inputs := rest })

/-- A command word as the host's very next move, on a block that is ready for it: no response waits (log entry 2). -/
def offerWord (cw : CmdWord) (s : State) : State := { responsesTaken s with inputs := .command cw :: s.inputs }

end Sys2Proof.Machine
end

