-- ==== Sys2Proof/Machine/Step.lean ====
section
/-! DEFINITION. One step of the block (spec/70_reset_and_hazards.md R250). -/

namespace Sys2Proof.Machine

/-- One step: the host's next move, or idling where there is none. -/
def step (s : State) : Host.Outcome State Fault Refusal := nextInput s

/-- The state in which the very next step accepts the command word whose bits are `w`: the block fetches nothing (R22), and
its program is the host's sequence of command words (R37). -/
def State.withFetchWord (s : State) (nbits w : Nat) : State := offerWord (BitVec.ofNat 64 (w % 2 ^ nbits)) s

end Sys2Proof.Machine
end

