-- ==== Sys2Proof/Machine/Assembler.lean ====
section
/-! DEFINITION. The assembler (spec/30_encoding.md R79 to R81): from an assembler line to its command words, and from the
text of a line to the line. It is no part of the engine, which sees command words only.

What R79 leaves open about the text (white space, the case of `0x` and of flag words, an empty line, `;` inside quotes)
is fixed here as log entry 8 says (DESIGN CHOICE, safe: it concerns host text only). -/

namespace Sys2Proof.Machine

/-! ### Lines to words -/

/-- The CONFIGURE a flag list stands for; the empty list means all three flags are 0 (R79). -/
def configureOf (fs : List Flag) : Instr :=
  .configure (decide (Flag.refin ∈ fs)) (decide (Flag.refout ∈ fs)) (decide (Flag.lut ∈ fs))

/-- The commands of `CONFIG poly, init, xorout [, flags]` (R80). -/
def configCommands (poly init xorout : Word) (conf : Instr) : List Instr :=
  [.setpoly poly, .setinit init, .setxor xorout, conf]

/-- The commands of `CALC b0, ..., b(n-1)` (R81). -/
def calcCommands (bytes : List Byte) : List Instr := .start :: (bytes.map .data ++ [.finish])

/-- The words of a line whose operands are in range (R79 to R81). -/
def lineWords : AsmLine → List CmdWord
  | .setpoly n => [encode (.setpoly (BitVec.ofNat 32 n))]
  | .setinit n => [encode (.setinit (BitVec.ofNat 32 n))]
  | .setxor n => [encode (.setxor (BitVec.ofNat 32 n))]
  | .configure fs => [encode (configureOf fs)]
  | .start => [encode .start]
  | .data n => [encode (.data (BitVec.ofNat 8 n))]
  | .finish => [encode .finish]
  | .readcfg n => [encode (.readcfg (BitVec.ofNat 8 n))]
  | .readlut n => [encode (.readlut (BitVec.ofNat 8 n))]
  | .reflect n => [encode (.reflect false (BitVec.ofNat 32 n))]
  | .reflectB n => [encode (.reflect true (BitVec.ofNat 32 n))]
  | .word64 n => [BitVec.ofNat 64 n]
  | .config p i x fs =>
    (configCommands (BitVec.ofNat 32 p) (BitVec.ofNat 32 i) (BitVec.ofNat 32 x) (configureOf fs)).map encode
  | .calc bs => (calcCommands (bs.map (BitVec.ofNat 8))).map encode

/-- Assembling one line: an operand out of its range is refused (R79). -/
def assembleLine (l : AsmLine) : Option (List CmdWord) := if l.wf then some (lineWords l) else none

/-- Assembling a program, line after line. -/
def assemble : List AsmLine → Option (List CmdWord)
  | [] => some []
  | l :: rest =>
    match assembleLine l, assemble rest with
    | some ws, some more => some (ws ++ more)
    | _, _ => none

/-! ### Text to lines -/

/-- A token of a line. -/
inductive Token where
  | word (cs : List Char)
  | comma
  | chr (c : Char)
  | str (cs : List Char)
  deriving DecidableEq, Repr

/-- Where the reader of a line stands: between quotes or not. Characters collected so far stand in reverse. -/
inductive LexMode where
  | plain (cur : List Char)
  | chrOpen
  | chrClose (c : Char)
  | str (cur : List Char)
  deriving DecidableEq, Repr

/-- Ends the word being collected. -/
def flushWord (cur : List Char) (rest : List Token) : List Token :=
  if cur = [] then rest else .word cur.reverse :: rest

/-- The tokens of a line; `;` outside quotes starts a comment (R79). -/
def lex : LexMode → List Char → Option (List Token)
  | .plain cur, [] => some (flushWord cur [])
  | .plain cur, c :: rest =>
    if c = ';' then some (flushWord cur [])
    else if c = ' ' ∨ c = '\t' ∨ c = '\r' then (lex (.plain []) rest).map (flushWord cur)
    else if c = ',' then (lex (.plain []) rest).map fun ts => flushWord cur (.comma :: ts)
    else if c = '\'' then if cur = [] then lex .chrOpen rest else none
    else if c = '"' then if cur = [] then lex (.str []) rest else none
    else lex (.plain (c :: cur)) rest
  | .chrOpen, [] => none
  | .chrOpen, c :: rest => lex (.chrClose c) rest
  | .chrClose _, [] => none
  | .chrClose c, q :: rest => if q = '\'' then (lex (.plain []) rest).map (.chr c :: ·) else none
  | .str _, [] => none
  | .str cur, c :: rest =>
    if c = '"' then (lex (.plain []) rest).map (.str cur.reverse :: ·) else lex (.str (c :: cur)) rest

/-- The value of a hexadecimal digit, in either case. -/
def hexDigit (c : Char) : Option Nat :=
  if '0' ≤ c ∧ c ≤ '9' then some (c.toNat - 48)
  else if 'a' ≤ c ∧ c ≤ 'f' then some (c.toNat - 87)
  else if 'A' ≤ c ∧ c ≤ 'F' then some (c.toNat - 55)
  else none

/-- Digits of a base, most significant first, after the value read so far. `_` separates hexadecimal digits (R79). -/
def readDigits (base : Nat) : Nat → List Char → Option Nat
  | v, [] => some v
  | v, c :: rest =>
    if c = '_' ∧ base = 16 then readDigits base v rest
    else match hexDigit c with
      | some d => if d < base then readDigits base (v * base + d) rest else none
      | none => none

/-- An integer in decimal or as `0x` hexadecimal (R79), with at least one digit. -/
def readNumber (cs : List Char) : Option Nat :=
  match cs with
  | '0' :: 'x' :: d :: ds => if d = '_' then none else readDigits 16 0 (d :: ds)
  | d :: ds => readDigits 10 0 (d :: ds)
  | [] => none

/-- The ASCII code of a character (R79, R81, general knowledge of the spec's G1 and G2). -/
def asciiCode (c : Char) : Option Nat := if c.toNat < 128 then some c.toNat else none

/-- The value of a numeric token. -/
def numberToken : Token → Option Nat
  | .word cs => readNumber cs
  | _ => none

/-- The value of an imm8 token: an integer or a character literal (R79). -/
def byteToken : Token → Option Nat
  | .word cs => readNumber cs
  | .chr c => asciiCode c
  | _ => none

/-- A space-separated list of flag words (R79). -/
def flagList : List Token → Option (List Flag)
  | [] => some []
  | .word cs :: rest =>
    match (if cs = ['r', 'e', 'f', 'i', 'n'] then some Flag.refin
           else if cs = ['r', 'e', 'f', 'o', 'u', 't'] then some Flag.refout
           else if cs = ['l', 'u', 't'] then some Flag.lut else none), flagList rest with
    | some f, some fs => some (f :: fs)
    | _, _ => none
  | _ :: _ => none

/-- A comma-separated list of imm8 tokens, at least one (R81). -/
def byteList : List Token → Option (List Nat)
  | [] => none
  | [t] => (byteToken t).map ([·])
  | t :: .comma :: rest =>
    match byteToken t, byteList rest with
    | some b, some bs => some (b :: bs)
    | _, _ => none
  | _ :: _ :: _ => none

/-- `readOne f mk args`: exactly one operand. -/
def readOne (f : Token → Option Nat) (mk : Nat → AsmLine) : List Token → Option AsmLine
  | [t] => (f t).map mk
  | _ => none

/-- `readNone l args`: no operand. -/
def readNone (l : AsmLine) : List Token → Option AsmLine
  | [] => some l
  | _ => none

/-- The operands of CONFIG (R80). -/
def readConfig : List Token → Option AsmLine
  | p :: .comma :: i :: .comma :: x :: more =>
    match numberToken p, numberToken i, numberToken x with
    | some p, some i, some x =>
      match more with
      | [] => some (.config p i x [])
      | .comma :: fs => (flagList fs).map (.config p i x)
      | _ => none
    | _, _, _ => none
  | _ => none

/-- The operands of CALC (R81): none, one string, or a list of bytes. -/
def readCalc : List Token → Option AsmLine
  | [] => some (.calc [])
  | [.str cs] => (cs.mapM asciiCode).map .calc
  | ts => (byteList ts).map .calc

/-- The line a mnemonic and its operands make; mnemonics are case-insensitive (R79). R79 and D30
leave open the case of the directive `.word64` and of the pseudo-instructions, which is any too, and how the imm64 of `.word64`
is written, which is in decimal or `0x` hexadecimal as an imm32 is, with no character literal (DESIGN CHOICE, safe; log
entry 8). -/
def readCommand (mnemonic : List Char) (args : List Token) : Option AsmLine :=
  let m := mnemonic.map Char.toUpper
  if m = ['S', 'E', 'T', 'P', 'O', 'L', 'Y'] then readOne numberToken .setpoly args
  else if m = ['S', 'E', 'T', 'I', 'N', 'I', 'T'] then readOne numberToken .setinit args
  else if m = ['S', 'E', 'T', 'X', 'O', 'R'] then readOne numberToken .setxor args
  else if m = ['C', 'O', 'N', 'F', 'I', 'G', 'U', 'R', 'E'] then (flagList args).map .configure
  else if m = ['S', 'T', 'A', 'R', 'T'] then readNone .start args
  else if m = ['D', 'A', 'T', 'A'] then readOne byteToken .data args
  else if m = ['F', 'I', 'N', 'I', 'S', 'H'] then readNone .finish args
  else if m = ['R', 'E', 'A', 'D', 'C', 'F', 'G'] then readOne byteToken .readcfg args
  else if m = ['R', 'E', 'A', 'D', 'L', 'U', 'T'] then readOne byteToken .readlut args
  else if m = ['R', 'E', 'F', 'L', 'E', 'C', 'T'] then readOne numberToken .reflect args
  else if m = ['R', 'E', 'F', 'L', 'E', 'C', 'T', '.', 'B'] then readOne numberToken .reflectB args
  else if m = ['.', 'W', 'O', 'R', 'D', '6', '4'] then readOne numberToken .word64 args
  else if m = ['C', 'O', 'N', 'F', 'I', 'G'] then readConfig args
  else if m = ['C', 'A', 'L', 'C'] then readCalc args
  else none

/-- Reading the text of one line: `none` where it is no line, `some none` where it holds no command. -/
def readLine (text : List Char) : Option (Option AsmLine) :=
  match lex (.plain []) text with
  | none => none
  | some [] => some none
  | some (.word m :: args) => (readCommand m args).map some
  | some _ => none

/-- Assembling the text of a program, given line by line. -/
def assembleText : List (List Char) → Option (List CmdWord)
  | [] => some []
  | t :: rest =>
    match readLine t, assembleText rest with
    | some none, some more => some more
    | some (some l), some more => (assembleLine l).map (· ++ more)
    | _, _ => none

end Sys2Proof.Machine
end

