-- ==== Sys2Proof/Safety.lean ====
section
/-! DEFINITION. The terms claims are stated in: the invariant of spec/10_state.md R35, what it means to keep a part of the
state, the conditions of the error causes (spec/60_exceptions.md R212 to R218), runs of commands, and the divider's
polynomials (spec/42_divider_lut.md R141). -/

namespace Sys2Proof.Machine

/-! ### The invariant -/

/-- The seven items of R35. -/
structure State.SpecInv (s : State) : Prop where
  poly_lt : s.poly.toNat < 2 ^ s.width.bits
  init_lt : s.init.toNat < 2 ^ s.width.bits
  xorout_lt : s.xorout.toNat < 2 ^ s.width.bits
  lut_lt : ∀ i v, lutAt s.lut i = some v → v.toNat < 2 ^ s.width.bits
  acc_lt : ∀ v, s.acc = some v → v.toNat < 2 ^ s.width.bits
  valid_iff : s.lutValid = true ↔ ∀ i, (lutAt s.lut i).isSome = true
  valid_entry : s.lutValid = true →
    ∀ i, lutAt s.lut i = some (div8 s.width s.poly (zextByte i <<< (s.width.bits - 8)))
  valid_use : s.lutValid = true → s.configured = true ∧ s.useLut = true
  active_acc : s.active = true → s.configured = true ∧ s.acc ≠ none
  idle_acc : s.active = false → s.acc = none
  clean_record : s.faulted = false → s.errCode = 0x00 ∧ s.errCmd = 0
  faulted_record : s.faulted = true → s.errCode ≠ 0x00

/-- R35 with what other rules add: USE_LUT = 1 after a commit means LUT_VALID = 1 (R167), a table that is not valid has no
value at all (R29), ERR_CODE is a code of R211, at most one response word waits (R247), and no more wait than were emitted.
DEDUCED, safe; log entry 9. -/
structure State.Inv (s : State) : Prop extends State.SpecInv s where
  use_valid : s.useLut = true → s.lutValid = true
  dropped : s.lutValid = false → ∀ i, lutAt s.lut i = none
  code_le : s.errCode.toNat ≤ 7
  waiting_le : s.waiting ≤ s.resp.length
  waiting_one : s.waiting ≤ 1

/-! ### Keeping a part of the state -/

/-- Everything but the response channel is the same: W, every register, flag and table entry, the error record, and the
host's coming moves. -/
def State.SameButResponses (s t : State) : Prop := t = { s with resp := t.resp, waiting := t.waiting }

/-- The committed configuration and the table are the same (the list of R40 and R108). -/
def State.SameConfig (s t : State) : Prop :=
  t.poly = s.poly ∧ t.init = s.init ∧ t.xorout = s.xorout ∧ t.refin = s.refin ∧ t.refout = s.refout ∧
    t.useLut = s.useLut ∧ t.lut = s.lut ∧ t.lutValid = s.lutValid

/-- The command completed and emitted exactly the word `v`, changing nothing else. -/
def Emits (r : Result) (s : State) (v : Word) : Prop :=
  ∃ t, r = .next t ∧ t.resp = s.resp ++ [v] ∧ s.SameButResponses t

/-- The state after the error entry of R220 with the number of a code and the word that raised it. -/
def State.withError (s : State) (code : Byte) (cw : CmdWord) : State :=
  { s with faulted := true, errCode := code, errCmd := cw }

/-! ### When a command word has an error condition -/

/-- The ten defined opcodes (R74). -/
def definedOpcodes : List Byte := [0x01, 0x02, 0x03, 0x04, 0x10, 0x11, 0x12, 0x20, 0x21, 0x22]

/-- The bits of a word with a defined opcode that must be zero (R72): RSV, and the reserved bits of CTL and OPND. -/
def reservedBits (opc : Byte) : CmdWord :=
  if opc ∈ [0x01, 0x02, 0x03] then 0x00FFFFFF00000000
  else if opc = 0x04 then 0x00FFFFF8FFFFFFFF
  else if opc ∈ [0x10, 0x12] then 0x00FFFFFFFFFFFFFF
  else if opc ∈ [0x11, 0x20, 0x21] then 0x00FFFFFFFFFFFF00
  else 0x00FFFFFE00000000

/-- The condition of each cause, from the word and the state (R212 to R218), each without regard to the others. -/
def ErrorCode.holds (c : ErrorCode) (cw : CmdWord) (s : State) : Prop :=
  let opc := opcField cw
  match c with
  | .illegalOpcode => opc ∉ definedOpcodes
  | .reservedNonzero => opc ∈ definedOpcodes ∧ cw &&& reservedBits opc ≠ 0
  | .badSelector => opc = 0x20 ∧ 11 ≤ (cw.extractLsb' 0 8).toNat
  | .notConfigured => opc ∈ ([0x10, 0x11, 0x12, 0x21] : List Byte) ∧ s.configured = false
  | .noSession => opc ∈ ([0x11, 0x12] : List Byte) ∧ s.active = false
  | .sessionActive => opc ∈ ([0x10, 0x04] : List Byte) ∧ s.active = true
  | .noTable => opc = 0x21 ∧ s.lutValid = false

/-- The order in which a command reports its errors (R219). -/
def errorPriority : List ErrorCode :=
  [.illegalOpcode, .reservedNonzero, .badSelector, .notConfigured, .noSession, .sessionActive, .noTable]

/-- `c` is the first cause in the order of R219 whose condition holds. -/
def FirstCause (c : ErrorCode) (cw : CmdWord) (s : State) : Prop :=
  ∃ before after, errorPriority = before ++ c :: after ∧ c.holds cw s ∧ ∀ d ∈ before, ¬ d.holds cw s

/-! ### Runs of commands -/

/-- The steps of a list of commands, each as its word (R257). -/
def runCommands (is : List Instr) (s : State) : Result := acceptWords (is.map encode) s

/-- The mode is READY (R34). -/
def State.Ready (s : State) : Prop := s.mode = .ready

/-- A command that neither opens nor closes a session nor replaces the configuration (R175): what may stand between a START
and its FINISH. -/
def insideSession : Instr → Prop
  | .start => False
  | .finish => False
  | .configure _ _ _ => False
  | _ => True

/-- The message bytes among a list of commands, in order (R52). -/
def messageBytes : List Instr → List Byte
  | [] => []
  | .data b :: rest => b :: messageBytes rest
  | _ :: rest => messageBytes rest

/-- The checksum of a message under the committed configuration of a state (R177). -/
def State.checksum (s : State) (bytes : List Byte) : Word :=
  Machine.checksum s.width s.poly s.init s.refin s.refout s.xorout bytes

/-! ### The divider as polynomial arithmetic over GF(2) -/

open Polynomial in
/-- The polynomial whose coefficient of x^k is bit k of the word (R141). -/
noncomputable def toPoly (v : Word) : (ZMod 2)[X] :=
  ∑ k ∈ Finset.range 32, if v.getLsbD k then X ^ k else 0

open Polynomial in
/-- The generator G(x) = x^W + P(x), its top term not stored (R141). -/
noncomputable def generator (w : Width) (poly : Word) : (ZMod 2)[X] := X ^ w.bits + toPoly poly

/-! ### The divider one bit at a time -/

/-- One bit of the message meets the register: the bit that leaves is XORed with the message bit, and decides whether the
polynomial is XORed in (R53, R140). -/
def shiftInBit (w : Width) (poly acc : Word) (b : Bool) : Word :=
  if (acc.getLsbD (w.bits - 1)) ^^ b then trunc w (acc <<< 1) ^^^ poly else trunc w (acc <<< 1)

/-- The bits of a byte, most significant first. -/
def bitsMsbFirst (b : Byte) : List Bool := [b.getLsbD 7, b.getLsbD 6, b.getLsbD 5, b.getLsbD 4,
  b.getLsbD 3, b.getLsbD 2, b.getLsbD 1, b.getLsbD 0]

/-- The bits of a byte, least significant first. -/
def bitsLsbFirst (b : Byte) : List Bool := [b.getLsbD 0, b.getLsbD 1, b.getLsbD 2, b.getLsbD 3,
  b.getLsbD 4, b.getLsbD 5, b.getLsbD 6, b.getLsbD 7]

end Sys2Proof.Machine
end

