-- ==== Sys2Proof/Certificates/Slice0/Obligations.lean ====
section
/-! DEFINITION. The statements for the provers. Each docstring names the rule of spec/ it formalises. -/

open Sys2Proof Sys2Proof.Machine

/-! ### Encoding (spec/30_encoding.md) -/

/-- Decode and encode agree, one way: every command, with every operand at every value the encoding admits, is what its own
word decodes to. -/
def Obligations.DecodeOfEncodeIsTheCommand : Prop :=
  ∀ i : Instr, decode (encode i) = .ok i

/-- The other way: a word that decodes to a command is that command's word, so no bit of a word is dropped. -/
def Obligations.EncodeOfDecodeIsTheWord : Prop :=
  ∀ (cw : CmdWord) (i : Instr), decode cw = .ok i → encode i = cw

/-- R73, R74: the match and mask of each row, and the operand fields read outside the mask. -/
def Obligations.MatchAndMaskSelectEachCommand : Prop :=
  ∀ cw : CmdWord,
    ((cw &&& 0xFFFFFFFF00000000 = 0x0100000000000000 → decode cw = .ok (.setpoly (cw.extractLsb' 0 32))) ∧
      ∀ v, decode cw = .ok (.setpoly v) → cw &&& 0xFFFFFFFF00000000 = 0x0100000000000000) ∧
    ((cw &&& 0xFFFFFFFF00000000 = 0x0200000000000000 → decode cw = .ok (.setinit (cw.extractLsb' 0 32))) ∧
      ∀ v, decode cw = .ok (.setinit v) → cw &&& 0xFFFFFFFF00000000 = 0x0200000000000000) ∧
    ((cw &&& 0xFFFFFFFF00000000 = 0x0300000000000000 → decode cw = .ok (.setxor (cw.extractLsb' 0 32))) ∧
      ∀ v, decode cw = .ok (.setxor v) → cw &&& 0xFFFFFFFF00000000 = 0x0300000000000000) ∧
    ((cw &&& 0xFFFFFFF8FFFFFFFF = 0x0400000000000000 →
        decode cw = .ok (.configure (cw.getLsbD 32) (cw.getLsbD 33) (cw.getLsbD 34))) ∧
      ∀ ri ro ul, decode cw = .ok (.configure ri ro ul) → cw &&& 0xFFFFFFF8FFFFFFFF = 0x0400000000000000) ∧
    (cw &&& 0xFFFFFFFFFFFFFFFF = 0x1000000000000000 ↔ decode cw = .ok .start) ∧
    ((cw &&& 0xFFFFFFFFFFFFFF00 = 0x1100000000000000 → decode cw = .ok (.data (cw.extractLsb' 0 8))) ∧
      ∀ b, decode cw = .ok (.data b) → cw &&& 0xFFFFFFFFFFFFFF00 = 0x1100000000000000) ∧
    (cw &&& 0xFFFFFFFFFFFFFFFF = 0x1200000000000000 ↔ decode cw = .ok .finish) ∧
    ((cw &&& 0xFFFFFFFFFFFFFF00 = 0x2000000000000000 → decode cw = .ok (.readcfg (cw.extractLsb' 0 8))) ∧
      ∀ b, decode cw = .ok (.readcfg b) → cw &&& 0xFFFFFFFFFFFFFF00 = 0x2000000000000000) ∧
    ((cw &&& 0xFFFFFFFFFFFFFF00 = 0x2100000000000000 → decode cw = .ok (.readlut (cw.extractLsb' 0 8))) ∧
      ∀ b, decode cw = .ok (.readlut b) → cw &&& 0xFFFFFFFFFFFFFF00 = 0x2100000000000000) ∧
    ((cw &&& 0xFFFFFFFE00000000 = 0x2200000000000000 →
        decode cw = .ok (.reflect (cw.getLsbD 32) (cw.extractLsb' 0 32))) ∧
      ∀ bm v, decode cw = .ok (.reflect bm v) → cw &&& 0xFFFFFFFE00000000 = 0x2200000000000000)

/-- R75, R78: every one of the 2^64 words is illegal by its opcode, or has a reserved bit set, or is one of the ten
commands; the three exclude each other. -/
def Obligations.EveryWordIsACommandOrAnError : Prop :=
  ∀ cw : CmdWord,
    (opcField cw ∉ definedOpcodes → decode cw = .error .illegalOpcode) ∧
    (opcField cw ∈ definedOpcodes → cw &&& reservedBits (opcField cw) ≠ 0 → decode cw = .error .reservedNonzero) ∧
    (opcField cw ∈ definedOpcodes → cw &&& reservedBits (opcField cw) = 0 →
      ∃ i : Instr, decode cw = .ok i ∧ i.opc = opcField cw ∧ encode i = cw)

/-- R76, R212: the 246 reserved opcodes, the all-zero word among them, raise ILLEGAL_OPCODE and have no other effect. -/
def Obligations.ReservedOpcodesAreIllegal : Prop :=
  (∀ cw : CmdWord,
    let o := (cw.extractLsb' 56 8).toNat
    (o = 0x00 ∨ (0x05 ≤ o ∧ o ≤ 0x0F) ∨ (0x13 ≤ o ∧ o ≤ 0x1F) ∨ 0x23 ≤ o) ↔ decode cw = .error .illegalOpcode) ∧
  (∀ (cw : CmdWord) (s : State), decode cw = .error .illegalOpcode → s.faulted = false →
    acceptWord cw s = .next (s.withError 0x01 cw)) ∧
  ((List.range 256).filter fun o => o = 0x00 ∨ (0x05 ≤ o ∧ o ≤ 0x0F) ∨ (0x13 ≤ o ∧ o ≤ 0x1F) ∨ 0x23 ≤ o).length = 246 ∧
  decode 0 = .error .illegalOpcode

/-- R77, R213: a defined opcode with a reserved bit set raises RESERVED_NONZERO and has no other effect. -/
def Obligations.ReservedBitsAreNeverIgnored : Prop :=
  ∀ (cw : CmdWord) (s : State), s.faulted = false → opcField cw ∈ definedOpcodes →
    cw &&& reservedBits (opcField cw) ≠ 0 → acceptWord cw s = .next (s.withError 0x02 cw)

/-- Words of spec/30_encoding.md R79, spec/41_reflection.md R128 and spec/95_test_vectors.md decode to the commands they stand
for, one of each row and each kind of error. -/
def Obligations.SampleWordsDecode : Prop :=
  decode 0x0100000004C11DB7 = .ok (.setpoly 0x04C11DB7) ∧
  decode 0x02000000FFFFFFFF = .ok (.setinit 0xFFFFFFFF) ∧
  decode 0x030000000000003C = .ok (.setxor 0x3C) ∧
  decode 0x0400000400000000 = .ok (.configure false false true) ∧
  decode 0x0400000300000000 = .ok (.configure true true false) ∧
  decode 0x1000000000000000 = .ok .start ∧
  decode 0x1100000000000031 = .ok (.data 0x31) ∧
  decode 0x1200000000000000 = .ok .finish ∧
  decode 0x2000000000000005 = .ok (.readcfg 5) ∧
  decode 0x2100000000000080 = .ok (.readlut 128) ∧
  decode 0x22000000FFFF0001 = .ok (.reflect false 0xFFFF0001) ∧
  decode 0x2200000100000031 = .ok (.reflect true 0x31) ∧
  decode 0xFFFFFFFFFFFFFFFF = .error .illegalOpcode ∧
  decode 0x0400000800000000 = .error .reservedNonzero ∧
  decode 0x2200000200000000 = .error .reservedNonzero

/-! ### A step (spec/70_reset_and_hazards.md) -/

/-- A step on an offered command word, while no response waits, runs exactly the command the word decodes to, on the state
without that word; a word that is no command raises its error there. While a response waits the word is not accepted: the step is
the host's taking of the response (R247). `inputs` is the model's channel (log entry 2), and when the host takes a response is its
choice (log entry 3). -/
def Obligations.StepRunsTheDecodedCommand : Prop :=
  ∀ (s : State) (cw : CmdWord) (rest : List HostInput), s.inputs = .command cw :: rest →
    (s.AcceptsCommand →
      (∀ i, decode cw = .ok i → step s = exec i { s with inputs := rest }) ∧
      (decode cw = .error .illegalOpcode → s.faulted = false →
        step s = .next { s.withError 0x01 cw with inputs := rest }) ∧
      (decode cw = .error .reservedNonzero → s.faulted = false →
        step s = .next { s.withError 0x02 cw with inputs := rest }) ∧
      (∀ e, decode cw = .error e → s.faulted = true → step s = .next { s with inputs := rest })) ∧
    (¬ s.AcceptsCommand → step s = .next { s with waiting := s.waiting - 1 })

/-- R230 (the moves are the model's channel, log entry 2): with no move of the host pending the block is idle and every piece of state is kept. `takeResponse` is the model's
own move (log entry 3): it changes nothing but the count of waiting words. -/
def Obligations.IdleAndTakingKeepTheEngine : Prop :=
  ∀ s : State,
    (s.inputs = [] → step s = .next s) ∧
    (∀ rest, s.inputs = .takeResponse :: rest →
      step s = .next { s with inputs := rest, waiting := s.waiting - 1 })

/-- R240, R241: reset takes the block to the reset state whatever state it was in. The words the host has taken stay in
RESP and those still waiting are lost; how many wait is the model's own count (log entry 3). -/
def Obligations.ResetTakesAnyStateToTheResetState : Prop :=
  ∀ (s : State) (rest : List HostInput), s.inputs = .reset :: rest →
    ∃ t, step s = .next t ∧
      t.polyS = 0 ∧ t.initS = 0 ∧ t.xorS = 0 ∧ t.poly = 0 ∧ t.init = 0 ∧ t.xorout = 0 ∧
      t.refin = false ∧ t.refout = false ∧ t.useLut = false ∧ t.configured = false ∧
      (∀ i, lutAt t.lut i = none) ∧ t.lutValid = false ∧ t.acc = none ∧ t.active = false ∧
      t.faulted = false ∧ t.errCode = 0x00 ∧ t.errCmd = 0 ∧ t.mode = .unconfigured ∧
      t.resp = s.resp.take (s.resp.length - s.waiting) ∧ t.waiting = 0 ∧
      t.width = s.width ∧ t.inputs = rest

/-- R243 (log entries 2, 3 and 12): no partial effect survives a reset. Two instances of one width, in any two states, are the same after it but for
the words the host had taken. -/
def Obligations.ResetForgetsEverythingBefore : Prop :=
  ∀ (s s' t t' : State) (rest : List HostInput), s.width = s'.width →
    s.inputs = .reset :: rest → s'.inputs = .reset :: rest → step s = .next t → step s' = .next t' →
    t' = { t with resp := t'.resp }

/-- R59, R257 (the channel is log entry 2): words pending on the channel are stepped one at a time, in the order of
acceptance; the machine needs a step for each word, and one more for each response word that the host takes between them
(R247; log entry 3), of which there are at most those waiting at the start and one for each word. -/
def Obligations.PendingWordsRunInOrder : Prop :=
  ∀ (ws : List CmdWord) (s : State) (rest : List HostInput),
    ∃ n, ws.length ≤ n ∧ n ≤ s.waiting + 2 * ws.length ∧
      Sys2Proof.core.run n { s with inputs := ws.map .command ++ rest } =
        (match acceptWords ws s with
         | .next t => .next { t with inputs := rest }
         | .fault r => .fault r
         | .refused r => .refused r)

/-- R63: nothing the block does can change a later command, and no later command changes what it does. -/
def Obligations.CommandsDoNotTouchPendingMoves : Prop :=
  ∀ (cw : CmdWord) (s : State) (q : List HostInput),
    acceptWord cw { s with inputs := q } =
      (match acceptWord cw s with
       | .next t => .next { t with inputs := q }
       | .fault r => .fault r
       | .refused r => .refused r)

/-- R247: the block accepts a command word only while no response waits; so a step never leaves more than one waiting. While
one waits an offered word stays offered and nothing of the engine changes; and a waiting word goes only by the host's taking, or
by reset. The count, and that the host takes before the next command is accepted, are the model's own (log entry 3). -/
def Obligations.AtMostOneResponseWaits : Prop :=
  (∀ s t : State, s.waiting ≤ 1 → step s = .next t → t.waiting ≤ 1) ∧
  (∀ (s : State) (cw : CmdWord) (rest : List HostInput), s.inputs = .command cw :: rest → s.waiting ≠ 0 →
    ∃ t, step s = .next t ∧ t.inputs = .command cw :: rest ∧ t = { s with waiting := s.waiting - 1 }) ∧
  (∀ (s t : State) (cw : CmdWord) (rest : List HostInput), s.inputs = .command cw :: rest → step s = .next t →
    t.inputs ≠ s.inputs → s.waiting = 0) ∧
  (∀ s t : State, step s = .next t → t.waiting < s.waiting →
    (t.resp = s.resp ∧ s.waiting = t.waiting + 1) ∨ ∃ rest, s.inputs = .reset :: rest)

/-! ### Construction (spec/40_construction.md) -/

/-- R101, R102, R103: each staging command completes in every mode but FAULTED, writes its raw operand, and nothing else; a
reserved bit raises RESERVED_NONZERO. -/
def Obligations.StagingCommandsWriteRawValues : Prop :=
  ∀ s : State, s.faulted = false →
    (∀ v : Word, exec (.setpoly v) s = .next { s with polyS := v } ∧
      acceptWord (0x0100000000000000 ||| v.setWidth 64) s = .next { s with polyS := v }) ∧
    (∀ v : Word, exec (.setinit v) s = .next { s with initS := v } ∧
      acceptWord (0x0200000000000000 ||| v.setWidth 64) s = .next { s with initS := v }) ∧
    (∀ v : Word, exec (.setxor v) s = .next { s with xorS := v } ∧
      acceptWord (0x0300000000000000 ||| v.setWidth 64) s = .next { s with xorS := v }) ∧
    (∀ cw : CmdWord, opcField cw = 0x01 ∨ opcField cw = 0x02 ∨ opcField cw = 0x03 → cw.extractLsb' 32 24 ≠ 0 →
      acceptWord cw s = .next (s.withError 0x02 cw)) ∧
    acceptWord 0x0100000004C11DB7 s = .next { s with polyS := 0x04C11DB7 } ∧
    acceptWord 0x02000000FFFFFFFF s = .next { s with initS := 0xFFFFFFFF } ∧
    acceptWord 0x03000000FFFFFFFF s = .next { s with xorS := 0xFFFFFFFF }

/-- R105: CONFIGURE outside a session commits the staged values masked to W bits and the three flags, builds or drops all
256 entries, sets CONFIGURED, and changes nothing else; the mode after is READY. -/
def Obligations.ConfigureCommitsAndBuildsTheTable : Prop :=
  ∀ (s : State) (ri ro ul : Bool), s.faulted = false →
    (s.active = true → exec (.configure ri ro ul) s = .next (s.withError 0x05 (encode (.configure ri ro ul)))) ∧
    (s.active = false →
      ∃ t, exec (.configure ri ro ul) s = .next t ∧
        t.poly.toNat = s.polyS.toNat % 2 ^ s.width.bits ∧
        t.init.toNat = s.initS.toNat % 2 ^ s.width.bits ∧
        t.xorout.toNat = s.xorS.toNat % 2 ^ s.width.bits ∧
        t.refin = ri ∧ t.refout = ro ∧ t.useLut = ul ∧
        (∀ i : Byte, lutAt t.lut i = if ul then some (buildEntry s.width t.poly i) else none) ∧
        t.lutValid = ul ∧ t.configured = true ∧ t.mode = .ready ∧
        t = { s with poly := t.poly, init := t.init, xorout := t.xorout, refin := ri, refout := ro, useLut := ul,
                     lut := t.lut, lutValid := ul, configured := true })

/-- R107: CONFIGURE's errors, in order, and nothing of R105 is written on one. -/
def Obligations.ConfigureErrorsInOrder : Prop :=
  ∀ (s : State) (cw : CmdWord), s.faulted = false → opcField cw = 0x04 →
    (cw.extractLsb' 35 21 ≠ 0 ∨ cw.extractLsb' 0 32 ≠ 0 → acceptWord cw s = .next (s.withError 0x02 cw)) ∧
    (cw.extractLsb' 35 21 = 0 → cw.extractLsb' 0 32 = 0 → s.active = true →
      acceptWord cw s = .next (s.withError 0x05 cw))

/-- R106: masking drops bits [31:W] of every staged value, never rejects, and what is left is used as it stands; the staging registers are kept, and a second CONFIGURE commits the same
integers with the new flags; a CONFIGURE right after reset commits zeros. -/
def Obligations.ConfigureMasksAndNeverRejects : Prop :=
  (∀ (s : State) (ri ro ul : Bool), s.faulted = false → s.active = false →
    ∃ t, exec (.configure ri ro ul) s = .next t ∧ t.faulted = false ∧
      (∀ k, lutAt t.lut k = if ul then some (buildEntry s.width t.poly k) else none) ∧
      t.poly.toNat = s.polyS.toNat % 2 ^ s.width.bits ∧
      t.init.toNat = s.initS.toNat % 2 ^ s.width.bits ∧
      t.xorout.toNat = s.xorS.toNat % 2 ^ s.width.bits ∧
      (s.width = .w8 → s.polyS = 0x1D5 → t.poly = 0xD5) ∧
      (s.width = .w16 → s.initS = 0xFFFFFFFF → t.init = 0xFFFF) ∧
      (s.width = .w32 → t.poly = s.polyS ∧ t.init = s.initS ∧ t.xorout = s.xorS) ∧
      t.polyS = s.polyS ∧ t.initS = s.initS ∧ t.xorS = s.xorS ∧
      (∀ ri' ro' ul', ∃ u, exec (.configure ri' ro' ul') t = .next u ∧
        u.poly = t.poly ∧ u.init = t.init ∧ u.xorout = t.xorout ∧
        u.refin = ri' ∧ u.refout = ro' ∧ u.useLut = ul' ∧ u.lutValid = ul' ∧
        ∀ i, lutAt u.lut i = if ul' then some (buildEntry t.width t.poly i) else none)) ∧
  (∀ (w : Width) (ri ro ul : Bool), ∃ t, exec (.configure ri ro ul) (State.resetAt w) = .next t ∧
    t.poly = 0 ∧ t.init = 0 ∧ t.xorout = 0)

/-- R100: a construction. The three staging commands in any order and then CONFIGURE, from UNCONFIGURED or READY, give the
constructed, ready engine. -/
def Obligations.ConstructionInAnyStagingOrder : Prop :=
  ∀ (s : State) (p i x : Word) (ri ro ul : Bool) (staging : List Instr),
    s.mode = .unconfigured ∨ s.mode = .ready →
    staging.Perm [.setpoly p, .setinit i, .setxor x] →
    ∃ t, runCommands (staging ++ [.configure ri ro ul]) s = .next t ∧
      t.polyS = p ∧ t.initS = i ∧ t.xorS = x ∧
      t.poly.toNat = p.toNat % 2 ^ s.width.bits ∧ t.init.toNat = i.toNat % 2 ^ s.width.bits ∧
      t.xorout.toNat = x.toNat % 2 ^ s.width.bits ∧
      t.refin = ri ∧ t.refout = ro ∧ t.useLut = ul ∧ t.lutValid = ul ∧
      (∀ k : Byte, lutAt t.lut k = if ul then some (buildEntry s.width t.poly k) else none) ∧
      t.mode = .ready

/-- R40 (and R108, which the spec derives from R105, R107 and R41): between two successful CONFIGUREs the committed
configuration, the LUT and LUT_VALID do not change. A word either is a CONFIGURE that succeeds or keeps them; and a run of
words keeps them up to its first CONFIGURE that succeeds. -/
def Obligations.ConfigurationIsImmutableBetweenConfigures : Prop :=
  (∀ (cw : CmdWord) (s t : State), acceptWord cw s = .next t →
    s.SameConfig t ∨ ((∃ ri ro ul, decode cw = .ok (.configure ri ro ul)) ∧ s.faulted = false ∧ s.active = false)) ∧
  (∀ (ws : List CmdWord) (s t : State), acceptWords ws s = .next t →
    s.SameConfig t ∨
    ∃ before cw after u, ws = before ++ cw :: after ∧ acceptWords before s = .next u ∧ s.SameConfig u ∧
      (∃ ri ro ul, decode cw = .ok (.configure ri ro ul)) ∧ u.faulted = false ∧ u.active = false)

/-! ### The bit-reflection unit (spec/41_reflection.md) -/

/-- R120: bit j of the reflection is bit n-1-j of the value, and the result is below 2^n. R120 defines `reflect` for values
below 2^n; that the same holds of a wider value, whose upper bits are not read, is the model's choice (log entry 6). -/
def Obligations.ReflectReversesTheLowBits : Prop :=
  ∀ (n : Nat) (v : Word), n = 8 ∨ n = 16 ∨ n = 32 →
    (∀ j, j < n → (reflect n v).getLsbD j = v.getLsbD (n - 1 - j)) ∧ (reflect n v).toNat < 2 ^ n

/-- R122: the laws of `reflect`. The involution is the source's; the spec derives the others from R120. -/
def Obligations.ReflectIsALinearInvolution : Prop :=
  ∀ n : Nat, n = 8 ∨ n = 16 ∨ n = 32 → ∀ a b : Word, a.toNat < 2 ^ n → b.toNat < 2 ^ n →
    reflect n (reflect n a) = a ∧
    reflect n (a ^^^ b) = reflect n a ^^^ reflect n b ∧
    reflect n 0 = 0 ∧
    reflect n (BitVec.ofNat 32 (2 ^ n - 1)) = BitVec.ofNat 32 (2 ^ n - 1) ∧
    reflect n 1 = BitVec.ofNat 32 (2 ^ (n - 1))

/-- R123, R125: every entry of the constant table is the 8-bit reflection of its index. -/
def Obligations.RromHoldsByteReflections : Prop :=
  ∀ i : Byte, zextByte (rrom[i.toNat]'i.isLt) = reflect 8 (zextByte i) ∧ reflectByte i = rrom[i.toNat]'i.isLt

/-- R127: REFLECT completes in UNCONFIGURED, READY and ACTIVE modes, emits one word and changes nothing else; bits above the
selected width are ignored; a reserved bit raises RESERVED_NONZERO; in FAULTED mode it is discarded. -/
def Obligations.ReflectEmitsTheReflection : Prop :=
  ∀ s : State,
    (∀ v : Word, s.faulted = false →
      Emits (exec (.reflect false v) s) s (reflect s.width.bits (BitVec.ofNat 32 (v.toNat % 2 ^ s.width.bits)))) ∧
    (∀ v : Word, s.faulted = false →
      Emits (exec (.reflect true v) s) s (zextByte (reflectByte (v.extractLsb' 0 8)))) ∧
    (∀ cw : CmdWord, s.faulted = false → opcField cw = 0x22 → cw.extractLsb' 33 23 ≠ 0 →
      acceptWord cw s = .next (s.withError 0x02 cw)) ∧
    (∀ bm v, s.faulted = true → exec (.reflect bm v) s = .next s)

/-! ### The divider and the table (spec/42_divider_lut.md) -/

/-- R142: one round, its range, and that the order of masking and XOR does not matter. -/
def Obligations.RoundShiftsAndConditionallyXors : Prop :=
  ∀ (w : Width) (poly c : Word), poly.toNat < 2 ^ w.bits → c.toNat < 2 ^ w.bits →
    (c.getLsbD (w.bits - 1) = true →
      (divRound w poly c).toNat = (2 * c.toNat ^^^ poly.toNat) % 2 ^ w.bits ∧
      (divRound w poly c).toNat = (2 * c.toNat) % 2 ^ w.bits ^^^ poly.toNat) ∧
    (c.getLsbD (w.bits - 1) = false → (divRound w poly c).toNat = (2 * c.toNat) % 2 ^ w.bits) ∧
    (divRound w poly c).toNat < 2 ^ w.bits

open Polynomial in
/-- R144, which the spec derives from R142 and R143: the divider is linear, a round multiplies by x modulo the generator, Div8 by x^8, and a value that fits below the
top byte is only shifted. -/
def Obligations.DividerIsPolynomialDivision : Prop :=
  ∀ (w : Width) (poly : Word), poly.toNat < 2 ^ w.bits →
    (∀ a b : Word, a.toNat < 2 ^ w.bits → b.toNat < 2 ^ w.bits →
      divRound w poly (a ^^^ b) = divRound w poly a ^^^ divRound w poly b ∧
      div8 w poly (a ^^^ b) = div8 w poly a ^^^ div8 w poly b) ∧
    div8 w poly 0 = 0 ∧
    (∀ c : Word, c.toNat < 2 ^ w.bits →
      toPoly (divRound w poly c) = (toPoly c * X) %ₘ generator w poly ∧
      toPoly (div8 w poly c) = (toPoly c * X ^ 8) %ₘ generator w poly) ∧
    (∀ c : Word, c.toNat < 2 ^ (w.bits - 8) →
      div8 w poly c = trunc w (c <<< 8) ∧ div8 w poly c = c <<< 8)

/-- R147, which the spec derives from R144 and R145: the laws of the table, the third of which fixes it by its eight entries at
the powers of two. -/
def Obligations.TableLaws : Prop :=
  ∀ (w : Width) (poly : Word), poly.toNat < 2 ^ w.bits →
    buildEntry w poly 0 = 0 ∧ buildEntry w poly 1 = poly ∧
    (∀ a b : Byte, buildEntry w poly (a ^^^ b) = buildEntry w poly a ^^^ buildEntry w poly b) ∧
    (∀ i : Byte, buildEntry w poly i =
      (List.range 8).foldl (fun r k => if i.getLsbD k then r ^^^ buildEntry w poly ((1 : Byte) <<< k) else r) 0) ∧
    (∀ i : Byte, buildEntry w 0 i = 0)

/-- R150: READLUT emits the entry and changes nothing else, in READY and ACTIVE modes; its errors in order; in FAULTED mode it
is discarded. -/
def Obligations.ReadlutEmitsTheEntry : Prop :=
  ∀ (s : State) (idx : Byte),
    (∀ v, s.faulted = false → s.configured = true → s.lutValid = true → lutAt s.lut idx = some v →
      Emits (exec (.readlut idx) s) s v) ∧
    (∀ cw : CmdWord, s.faulted = false → opcField cw = 0x21 → cw.extractLsb' 8 48 ≠ 0 →
      acceptWord cw s = .next (s.withError 0x02 cw)) ∧
    (s.faulted = false → s.configured = false →
      exec (.readlut idx) s = .next (s.withError 0x03 (encode (.readlut idx)))) ∧
    (s.faulted = false → s.configured = true → s.lutValid = false →
      exec (.readlut idx) s = .next (s.withError 0x07 (encode (.readlut idx)))) ∧
    (s.faulted = true → exec (.readlut idx) s = .next s)

/-! ### Calculation (spec/43_calculate.md) -/

/-- R162, R163: START opens a session with the committed INIT; its errors in order. -/
def Obligations.StartLoadsTheCommittedInit : Prop :=
  ∀ s : State, s.faulted = false →
    (s.configured = true → s.active = false →
      ∃ t, exec .start s = .next t ∧ t = { s with acc := some s.init, active := true } ∧ t.mode = .active) ∧
    (∀ cw : CmdWord, opcField cw = 0x10 → cw.extractLsb' 0 56 ≠ 0 → acceptWord cw s = .next (s.withError 0x02 cw)) ∧
    (s.configured = false → exec .start s = .next (s.withError 0x03 0x1000000000000000)) ∧
    (s.configured = true → s.active = true → exec .start s = .next (s.withError 0x05 0x1000000000000000))

/-- R165, R166, R167, R168: DATA updates ACC on the selected path and changes nothing else; its errors in order. -/
def Obligations.DataUpdatesTheRegister : Prop :=
  ∀ (s : State) (b : Byte), s.faulted = false →
    (∀ (a : Word) (temp : Byte), s.configured = true → s.active = true → s.acc = some a →
      a.toNat < 2 ^ s.width.bits → temp = (if s.refin then rrom[b.toNat]'b.isLt else b) →
      (s.useLut = false →
        exec (.data b) s = .next { s with
          acc := some (div8 s.width s.poly (trunc s.width (a ^^^ (zextByte temp <<< (s.width.bits - 8))))) }) ∧
      (∀ (k : Byte) (e : Word), s.useLut = true →
        k.toNat = ((a >>> (s.width.bits - 8)) ^^^ zextByte temp).toNat → lutAt s.lut k = some e →
        exec (.data b) s = .next { s with acc := some (trunc s.width ((a <<< 8) ^^^ e)) })) ∧
    (∀ cw : CmdWord, opcField cw = 0x11 → cw.extractLsb' 8 48 ≠ 0 → acceptWord cw s = .next (s.withError 0x02 cw)) ∧
    (s.configured = false → exec (.data b) s = .next (s.withError 0x03 (encode (.data b)))) ∧
    (s.configured = true → s.active = false → exec (.data b) s = .next (s.withError 0x04 (encode (.data b))))

/-- R169, which the spec derives from R165 to R168: the corner cases of DATA's update. -/
def Obligations.DataCornerCases : Prop :=
  (∀ (poly acc e : Word) (temp : Byte), acc.toNat < 2 ^ 8 → e.toNat < 2 ^ 8 →
    directUpdate .w8 poly acc temp = div8 .w8 poly (acc ^^^ zextByte temp) ∧
    lutIndex .w8 acc temp = acc.setWidth 8 ^^^ temp ∧ lutUpdate .w8 acc e = e) ∧
  (∀ (w : Width) (acc : Word) (temp : Byte), acc.toNat < 2 ^ w.bits →
    directUpdate w 0 acc temp = trunc w ((acc ^^^ (zextByte temp <<< (w.bits - 8))) <<< 8) ∧
    (w = .w8 → directUpdate w 0 acc temp = 0)) ∧
  (∀ (w : Width) (poly : Word), poly.toNat < 2 ^ w.bits →
    directUpdate w poly 0 0 = 0 ∧ lutUpdate w 0 (buildEntry w poly (lutIndex w 0 0)) = 0) ∧
  (∀ b : Byte, rrom[b.toNat]'b.isLt = b ↔ b ∈ ([0x00, 0x18, 0x24, 0x3C, 0x42, 0x5A, 0x66, 0x7E, 0x81, 0x99, 0xA5, 0xBD,
    0xC3, 0xDB, 0xE7, 0xFF] : List Byte)) ∧
  directUpdate .w8 0x07 0x00 0x31 = 0x97 ∧ lutUpdate .w8 0x00 (buildEntry .w8 0x07 (lutIndex .w8 0x00 0x31)) = 0x97

/-- R210: in an open session a DATA with any byte succeeds, whatever the path, the width and the configuration; no staged
value is ever an error; and a session of any length succeeds. -/
def Obligations.NoByteAndNoParameterIsAnError : Prop :=
  (∀ (s : State) (b : Byte), s.Inv → s.mode = .active →
    ∃ t a, exec (.data b) s = .next t ∧ t.acc = some a ∧ t = { s with acc := t.acc } ∧ a.toNat < 2 ^ s.width.bits) ∧
  (∀ (s : State) (bytes : List Byte), s.Inv → s.mode = .ready →
    ∃ t, runCommands (calcCommands bytes) s = .next t ∧ t.mode = .ready) ∧
  (∀ (s : State) (p i x : Word) (ri ro ul : Bool), s.mode = .unconfigured ∨ s.mode = .ready →
    ∃ t, runCommands (configCommands p i x (.configure ri ro ul)) s = .next t ∧ t.mode = .ready)

/-- R170: the two paths agree, byte by byte, for every W, polynomial, register value and byte; so a whole session gives the
same result with USE_LUT = 1 as with USE_LUT = 0. -/
def Obligations.LutPathEqualsDirectPath : Prop :=
  (∀ (w : Width) (poly acc : Word) (temp : Byte), poly.toNat < 2 ^ w.bits → acc.toNat < 2 ^ w.bits →
    ∃ k : Byte, k.toNat = ((acc >>> (w.bits - 8)) ^^^ zextByte temp).toNat ∧
      trunc w ((acc <<< 8) ^^^ buildEntry w poly k) = directUpdate w poly acc temp) ∧
  (∀ (s : State) (p i x : Word) (ri ro : Bool) (bytes : List Byte), s.mode = .unconfigured ∨ s.mode = .ready →
    ∃ t t' v,
      runCommands (configCommands p i x (.configure ri ro true) ++ calcCommands bytes) s = .next t ∧
      runCommands (configCommands p i x (.configure ri ro false) ++ calcCommands bytes) s = .next t' ∧
      t.resp = s.resp ++ [v] ∧ t'.resp = s.resp ++ [v])

/-- R172: FINISH emits the checksum, the XOR applied after the optional reflection whether or not REFOUT = 1, closes the
session and changes nothing else; its errors as R173 orders them. -/
def Obligations.FinishEmitsAndClosesTheSession : Prop :=
  ∀ s : State, s.faulted = false →
    (∀ a, s.configured = true → s.active = true → s.acc = some a →
      ∃ t, exec .finish s = .next t ∧
        t.resp = s.resp ++ [trunc s.width ((if s.refout then reflect s.width.bits a else a) ^^^ s.xorout)] ∧
        t = { s with acc := none, active := false, resp := t.resp, waiting := t.waiting } ∧ t.mode = .ready) ∧
    (∀ cw : CmdWord, opcField cw = 0x12 → cw.extractLsb' 0 56 ≠ 0 → acceptWord cw s = .next (s.withError 0x02 cw)) ∧
    (s.configured = false → exec .finish s = .next (s.withError 0x03 0x1200000000000000)) ∧
    (s.configured = true → s.active = false → exec .finish s = .next (s.withError 0x04 0x1200000000000000))

/-- R174: the empty message. -/
def Obligations.EmptyMessageReturnsInit : Prop :=
  ∀ s : State, s.mode = .ready →
    ∃ t, runCommands [.start, .finish] s = .next t ∧
      t.resp = s.resp ++ [trunc s.width ((if s.refout then reflect s.width.bits s.init else s.init) ^^^ s.xorout)] ∧
      t = { s with acc := none, resp := t.resp, waiting := t.waiting }

/-- R160 and R177 (which the spec derives from R162, R165, R166, R170 and R172): from READY, a session over any message emits exactly the checksum of the message, on either path, and leaves
everything else as it was. -/
def Obligations.SessionEmitsTheChecksum : Prop :=
  ∀ (s : State) (bytes : List Byte), s.Inv → s.mode = .ready →
    Emits (runCommands (calcCommands bytes) s) s
      (checksum s.width s.poly s.init s.refin s.refout s.xorout bytes)

/-- R175, which the spec derives from R162, R168, R172 and R41: the word a session emits depends only on POLY, INIT, XOROUT, REFIN, REFOUT, W and the message bytes: not on the path,
on earlier sessions, on the staging registers, or on other commands between START and FINISH. -/
def Obligations.SessionsAreIndependent : Prop :=
  ∀ (s s' t t' : State) (is is' : List Instr), s.Inv → s'.Inv → s.mode = .ready → s'.mode = .ready →
    s.width = s'.width → s.poly = s'.poly → s.init = s'.init → s.xorout = s'.xorout →
    s.refin = s'.refin → s.refout = s'.refout →
    (∀ i ∈ is, insideSession i) → (∀ i ∈ is', insideSession i) → messageBytes is = messageBytes is' →
    runCommands (.start :: (is ++ [.finish])) s = .next t → t.faulted = false →
    runCommands (.start :: (is' ++ [.finish])) s' = .next t' → t'.faulted = false →
    t.resp.getLast? = t'.resp.getLast? ∧
    t.resp.getLast? = some (checksum s.width s.poly s.init s.refin s.refout s.xorout (messageBytes is))

/-- R176, which the spec derives from R172: every checksum FINISH emits is below 2^W, so bits [31:W] of the response word are zero. -/
def Obligations.ChecksumsAreBelowTwoToTheW : Prop :=
  ∀ (s t : State) (v : Word), exec .finish s = .next t → t.resp = s.resp ++ [v] →
    v.toNat < 2 ^ s.width.bits ∧ ∀ k, s.width.bits ≤ k → v.getLsbD k = false

/-- R53, which the spec derives from R165, R166 and R142: the order in which the divider consumes the bits of a byte: bit 7 first as it stands, bit 0 first when it was
reflected through RROM. -/
def Obligations.MessageBitsAreConsumedInOrder : Prop :=
  ∀ (w : Width) (poly acc : Word) (b : Byte), poly.toNat < 2 ^ w.bits → acc.toNat < 2 ^ w.bits →
    directUpdate w poly acc b = (bitsMsbFirst b).foldl (shiftInBit w poly) acc ∧
    directUpdate w poly acc (reflectByte b) = (bitsLsbFirst b).foldl (shiftInBit w poly) acc

/-! ### Diagnostics (spec/44_diagnostics.md) -/

/-- R191, R193, R217: READCFG emits the selector's word and changes nothing else, in every mode; selectors 11 to 255 raise
BAD_SELECTOR; a reserved bit raises RESERVED_NONZERO first; and the words after reset. -/
def Obligations.ReadcfgReturnsTheSelectedWord : Prop :=
  (∀ s : State,
    Emits (exec (.readcfg 0) s) s (BitVec.ofNat 32 s.width.bits) ∧
    Emits (exec (.readcfg 1) s) s s.poly ∧
    Emits (exec (.readcfg 2) s) s s.init ∧
    Emits (exec (.readcfg 3) s) s s.xorout ∧
    (∃ v, Emits (exec (.readcfg 4) s) s v ∧ v.getLsbD 0 = s.refin ∧ v.getLsbD 1 = s.refout ∧ v.getLsbD 2 = s.useLut ∧
      v.extractLsb' 3 29 = 0) ∧
    Emits (exec (.readcfg 5) s) s (statusWord s) ∧
    Emits (exec (.readcfg 6) s) s (s.errCmd.extractLsb' 32 32) ∧
    Emits (exec (.readcfg 7) s) s (s.errCmd.extractLsb' 0 32) ∧
    Emits (exec (.readcfg 8) s) s s.polyS ∧
    Emits (exec (.readcfg 9) s) s s.initS ∧
    Emits (exec (.readcfg 10) s) s s.xorS ∧
    (∀ sel : Byte, 11 ≤ sel.toNat → s.faulted = false →
      exec (.readcfg sel) s = .next (s.withError 0x06 (0x2000000000000000 ||| sel.setWidth 64))) ∧
    (∀ cw : CmdWord, s.faulted = false → opcField cw = 0x20 → cw.extractLsb' 8 48 ≠ 0 →
      acceptWord cw s = .next (s.withError 0x02 cw))) ∧
  (∀ (w : Width) (sel : Byte), 1 ≤ sel.toNat → sel.toNat ≤ 10 →
    Emits (exec (.readcfg sel) (State.resetAt w)) (State.resetAt w) 0)

/-- R192: the STATUS word, field by field, and that the mode of R34 can be computed from its bits [3:0]. -/
def Obligations.StatusWordLayout : Prop :=
  (∀ s : State,
    (statusWord s).getLsbD 0 = s.configured ∧ (statusWord s).getLsbD 1 = s.active ∧
    (statusWord s).getLsbD 2 = s.lutValid ∧ (statusWord s).getLsbD 3 = s.faulted ∧
    (statusWord s).extractLsb' 4 4 = 0 ∧ (statusWord s).extractLsb' 8 8 = s.errCode ∧
    (statusWord s).extractLsb' 16 16 = 0) ∧
  (∀ s s' : State, (statusWord s).extractLsb' 0 4 = (statusWord s').extractLsb' 0 4 → s.mode = s'.mode)

/-! ### Errors (spec/60_exceptions.md) -/

/-- R211, R219: outside FAULTED mode a word reports exactly the first cause in the fixed order whose condition (R212 to R218)
holds, with its number; where none holds the command completes with no error recorded (from every state that meets the
invariant, so that the record was clean); and reset clears the record. -/
def Obligations.FirstCauseInPriorityOrderIsReported : Prop :=
  (∀ (cw : CmdWord) (s : State), s.faulted = false →
    (∀ c, FirstCause c cw s → acceptWord cw s = .next (s.withError c.byte cw)) ∧
    ((∀ c : ErrorCode, ¬ c.holds cw s) → s.Inv →
      ∃ t, acceptWord cw s = .next t ∧ t.faulted = false ∧ t.errCode = 0x00 ∧ t.errCmd = 0)) ∧
  (∀ s : State, (resetFrom s).faulted = false ∧ (resetFrom s).errCode = 0x00 ∧ (resetFrom s).errCmd = 0) ∧
  ErrorCode.byte .illegalOpcode = 0x01 ∧ ErrorCode.byte .reservedNonzero = 0x02 ∧
  ErrorCode.byte .notConfigured = 0x03 ∧ ErrorCode.byte .noSession = 0x04 ∧ ErrorCode.byte .sessionActive = 0x05 ∧
  ErrorCode.byte .badSelector = 0x06 ∧ ErrorCode.byte .noTable = 0x07

/-- R214, R215, R216, R218: the mode errors of each command, and that the other commands never raise NOT_CONFIGURED. -/
def Obligations.ModeErrorsOfEachCommand : Prop :=
  ∀ s : State, s.faulted = false →
    (∀ i : Instr, (i = .start ∨ (∃ b, i = .data b) ∨ i = .finish ∨ ∃ k, i = .readlut k) → s.configured = false →
      exec i s = .next (s.withError 0x03 (encode i))) ∧
    (∀ (i : Instr) (t : State), ¬ (i = .start ∨ (∃ b, i = .data b) ∨ i = .finish ∨ ∃ k, i = .readlut k) →
      exec i s = .next t → s.errCode = 0x00 → t.errCode ≠ 0x03) ∧
    (∀ i : Instr, ((∃ b, i = .data b) ∨ i = .finish) → s.configured = true → s.active = false →
      exec i s = .next (s.withError 0x04 (encode i))) ∧
    (s.configured = true → s.active = true → exec .start s = .next (s.withError 0x05 (encode .start))) ∧
    (∀ ri ro ul, s.active = true →
      exec (.configure ri ro ul) s = .next (s.withError 0x05 (encode (.configure ri ro ul)))) ∧
    (∀ k, s.configured = true → s.lutValid = false →
      exec (.readlut k) s = .next (s.withError 0x07 (encode (.readlut k))))

/-- R220: the error entry. Whatever the word, when it raises an error the state is as before but for the error record, which
holds a code of R211 and the word that failed; no response is emitted. -/
def Obligations.ErrorEntryKeepsEverythingElse : Prop :=
  ∀ (cw : CmdWord) (s t : State), s.faulted = false → acceptWord cw s = .next t → t.faulted = true →
    ∃ code : Byte, 1 ≤ code.toNat ∧ code.toNat ≤ 7 ∧ t = { s with faulted := true, errCode := code, errCmd := cw }

/-- R194, R221: in FAULTED mode a READCFG of selector 0 to 10 emits its word and changes nothing else, and every other word
is discarded; outside it, a word is decoded and its rule is run, or its error is entered. -/
def Obligations.FaultedModeDiscardsAllButReadcfg : Prop :=
  ∀ (s : State) (cw : CmdWord),
    (s.faulted = true → cw &&& 0xFFFFFFFFFFFFFF00 = 0x2000000000000000 → (cw.extractLsb' 0 8).toNat ≤ 10 →
      ∃ v, cfgWord s (cw.extractLsb' 0 8) = some v ∧ Emits (acceptWord cw s) s v) ∧
    (s.faulted = true →
      ¬ (cw &&& 0xFFFFFFFFFFFFFF00 = 0x2000000000000000 ∧ (cw.extractLsb' 0 8).toNat ≤ 10) →
      acceptWord cw s = .next s) ∧
    (s.faulted = false →
      (∀ i, decode cw = .ok i → acceptWord cw s = exec i s) ∧
      (decode cw = .error .illegalOpcode → acceptWord cw s = .next (s.withError 0x01 cw)) ∧
      (decode cw = .error .reservedNonzero → acceptWord cw s = .next (s.withError 0x02 cw)))

/-- R222 (the moves of the host are the model's channel, log entry 2): no step leaves FAULTED mode or clears the error record but reset, which returns the block to UNCONFIGURED. -/
def Obligations.OnlyResetLeavesFaultedMode : Prop :=
  ∀ s t : State, s.faulted = true → step s = .next t →
    (t.faulted = true ∧ t.errCode = s.errCode ∧ t.errCmd = s.errCmd) ∨
    ((∃ rest, s.inputs = .reset :: rest) ∧ t.mode = .unconfigured)

/-! ### The whole machine (spec/10_state.md) -/

/-- R35, its beginning (State.reset's W is log entry 1): the seven invariants, and what the model adds to them (log entry 9), hold at reset, at every width. -/
def Obligations.ResetMeetsTheInvariant : Prop :=
  State.reset.Inv ∧ ∀ w : Width, (State.resetAt w).Inv

/-- R35, which the spec derives from R23 to R34 and the command rules: the seven invariants hold from reset on and every step keeps them, from every state that meets them. -/
def Obligations.EveryStepKeepsTheSpecInvariants : Prop :=
  (∀ w : Width, (State.resetAt w).SpecInv) ∧
  ∀ s t : State, s.SpecInv → step s = .next t → t.SpecInv

/-- R15: no command can read an absent value. From every state that meets the invariant (log entry 9) every step answers a next
state, never a fault and never a refusal, and that state meets it again. -/
def Obligations.NoStepReadsAnAbsentValue : Prop :=
  ∀ s : State, s.Inv → ∃ t, step s = .next t ∧ t.Inv

/-- R41, which the spec derives from the command rules, the frame of every command: what each writes when it succeeds; otherwise it is discarded (FAULTED mode) or enters an
error, which writes the error record only. `waiting` follows RESP (log entry 3). -/
def Obligations.EachCommandWritesOnlyItsState : Prop :=
  ∀ (i : Instr) (s t : State), exec i s = .next t →
    (s.faulted = true ∧ t = s) ∨
    (s.faulted = false ∧ ∃ code : Byte, t = s.withError code (encode i)) ∨
    (match i with
     | .setpoly v => t = { s with polyS := v }
     | .setinit v => t = { s with initS := v }
     | .setxor v => t = { s with xorS := v }
     | .configure ri ro ul =>
       t = { s with poly := t.poly, init := t.init, xorout := t.xorout, refin := ri, refout := ro, useLut := ul,
                    lut := t.lut, lutValid := ul, configured := true }
     | .start => t = { s with acc := some s.init, active := true }
     | .data _ => t = { s with acc := t.acc }
     | .finish => ∃ v, t = { s with acc := none, active := false, resp := s.resp ++ [v], waiting := s.waiting + 1 }
     | .readcfg _ => ∃ v, t = { s with resp := s.resp ++ [v], waiting := s.waiting + 1 }
     | .readlut _ => ∃ v, t = { s with resp := s.resp ++ [v], waiting := s.waiting + 1 }
     | .reflect _ _ => ∃ v, t = { s with resp := s.resp ++ [v], waiting := s.waiting + 1 })

/-- R36 (how many words wait is log entry 3): the response channel only grows under commands; FINISH, READCFG, READLUT and REFLECT emit exactly one word when they
succeed; no other command emits, and none that raises an error does. -/
def Obligations.FourCommandsEmitOneWordEach : Prop :=
  ∀ (i : Instr) (s t : State), s.faulted = false → exec i s = .next t →
    (t.faulted = true → t.resp = s.resp) ∧
    (t.faulted = false →
      ((i = .finish ∨ (∃ k, i = .readcfg k) ∨ (∃ k, i = .readlut k) ∨ ∃ bm v, i = .reflect bm v) →
        ∃ v, t.resp = s.resp ++ [v] ∧ t.waiting = s.waiting + 1) ∧
      (¬ (i = .finish ∨ (∃ k, i = .readcfg k) ∨ (∃ k, i = .readlut k) ∨ ∃ bm v, i = .reflect bm v) →
        t.resp = s.resp ∧ t.waiting = s.waiting))

/-- R34: the modes and the commands that move between them: CONFIGURE from UNCONFIGURED to READY, START from READY to ACTIVE,
FINISH from ACTIVE back, an error from any of them to FAULTED; nothing else changes the mode. -/
def Obligations.OnlyTheseCommandsChangeTheMode : Prop :=
  ∀ (cw : CmdWord) (s t : State), acceptWord cw s = .next t →
    t.mode = s.mode ∨
    (s.mode ≠ .faulted ∧ t.mode = .faulted) ∨
    (s.mode = .unconfigured ∧ t.mode = .ready ∧ ∃ ri ro ul, decode cw = .ok (.configure ri ro ul)) ∨
    (s.mode = .ready ∧ t.mode = .active ∧ decode cw = .ok .start) ∨
    (s.mode = .active ∧ t.mode = .ready ∧ decode cw = .ok .finish)

/-- R58, which the spec derives from the command rules: which commands change no state, which are idempotent and which are not. -/
def Obligations.SideEffectsAndIdempotence : Prop :=
  (∀ (i : Instr) (s t : State), ((∃ k, i = .readcfg k) ∨ (∃ k, i = .readlut k) ∨ ∃ bm v, i = .reflect bm v) →
    exec i s = .next t → ∀ v, t.resp = s.resp ++ [v] →
      s.SameButResponses t ∧ ∃ u, exec i t = .next u ∧ u.resp = t.resp ++ [v]) ∧
  (∀ (s : State) (v : Word),
    runCommands [.setpoly v, .setpoly v] s = runCommands [.setpoly v] s ∧
    runCommands [.setinit v, .setinit v] s = runCommands [.setinit v] s ∧
    runCommands [.setxor v, .setxor v] s = runCommands [.setxor v] s) ∧
  (∀ (s : State) (ri ro ul : Bool), s.mode = .ready →
    runCommands [.configure ri ro ul, .configure ri ro ul] s = runCommands [.configure ri ro ul] s) ∧
  (∀ s t : State, s.mode = .ready → exec .start s = .next t →
    exec .start t = .next (t.withError 0x05 (encode .start))) ∧
  (∀ (s : State) (b : Byte), s.Inv → s.mode = .active →
    ∃ a t, s.acc = some a ∧ runCommands [.data b, .data b] s = .next t ∧
      t.acc = some (directUpdate s.width s.poly (directUpdate s.width s.poly a (inputByte s.refin b))
        (inputByte s.refin b))) ∧
  (∀ s t : State, s.Inv → s.mode = .active → exec .finish s = .next t →
    exec .finish t = .next (t.withError 0x04 (encode .finish)))

/-- R248, which the spec derives from R246 and R247: a command may read what the command just before it wrote: a CONFIGURE after a staging write commits the new value, a
DATA after START sees INIT, a READLUT after CONFIGURE sees the new table. -/
def Obligations.CommandsSeeWhatTheOneBeforeWrote : Prop :=
  (∀ (s : State) (p : Word) (ri ro ul : Bool), s.faulted = false → s.active = false →
    ∃ t, runCommands [.setpoly p, .configure ri ro ul] s = .next t ∧ t.poly.toNat = p.toNat % 2 ^ s.width.bits) ∧
  (∀ (s : State) (b : Byte), s.Inv → s.mode = .ready →
    ∃ t, runCommands [.start, .data b] s = .next t ∧
      t.acc = some (directUpdate s.width s.poly s.init (inputByte s.refin b))) ∧
  (∀ (s : State) (ri ro : Bool) (k : Byte), s.faulted = false → s.active = false →
    ∃ t, runCommands [.configure ri ro true, .readlut k] s = .next t ∧
      t.resp = s.resp ++ [buildEntry s.width (BitVec.ofNat 32 (s.polyS.toNat % 2 ^ s.width.bits)) k])

/-- R8, R109 (W in State is log entry 1): an instance exists for W = 8, 16 and 32 and for no other W, and no step changes the width of an instance. -/
def Obligations.WidthIsOneOfThreeAndNeverChanges : Prop :=
  (∀ n : Nat, (∃ w, Width.ofBits? n = some w ∧ w.bits = n) ↔ n = 8 ∨ n = 16 ∨ n = 32) ∧
  (∀ n : Nat, n ≠ 8 → n ≠ 16 → n ≠ 32 → Width.ofBits? n = none) ∧
  (∀ s t : State, step s = .next t → t.width = s.width)

/-! ### The assembler (spec/30_encoding.md) -/

/-- R79 without its text conventions (log entry 8): the word of each line, and that an operand out of its range is refused. -/
def Obligations.AssemblerWordsAndRanges : Prop :=
  (∀ n : Nat, n < 2 ^ 32 →
    assembleLine (.setpoly n) = some [0x0100000000000000 ||| BitVec.ofNat 64 n] ∧
    assembleLine (.setinit n) = some [0x0200000000000000 ||| BitVec.ofNat 64 n] ∧
    assembleLine (.setxor n) = some [0x0300000000000000 ||| BitVec.ofNat 64 n] ∧
    assembleLine (.reflect n) = some [0x2200000000000000 ||| BitVec.ofNat 64 n] ∧
    assembleLine (.reflectB n) = some [0x2200000100000000 ||| BitVec.ofNat 64 n]) ∧
  (∀ n : Nat, 2 ^ 32 ≤ n →
    assembleLine (.setpoly n) = none ∧ assembleLine (.setinit n) = none ∧ assembleLine (.setxor n) = none ∧
    assembleLine (.reflect n) = none ∧ assembleLine (.reflectB n) = none) ∧
  (∀ n : Nat, n < 2 ^ 8 →
    assembleLine (.data n) = some [0x1100000000000000 ||| BitVec.ofNat 64 n] ∧
    assembleLine (.readcfg n) = some [0x2000000000000000 ||| BitVec.ofNat 64 n] ∧
    assembleLine (.readlut n) = some [0x2100000000000000 ||| BitVec.ofNat 64 n]) ∧
  (∀ n : Nat, 2 ^ 8 ≤ n →
    assembleLine (.data n) = none ∧ assembleLine (.readcfg n) = none ∧ assembleLine (.readlut n) = none) ∧
  (∀ fs : List Flag, fs.Nodup →
    assembleLine (.configure fs) = some [0x0400000000000000 |||
      (if Flag.refin ∈ fs then (1 : CmdWord) <<< 32 else 0) |||
      (if Flag.refout ∈ fs then (1 : CmdWord) <<< 33 else 0) |||
      (if Flag.lut ∈ fs then (1 : CmdWord) <<< 34 else 0)]) ∧
  (∀ fs : List Flag, ¬ fs.Nodup → assembleLine (.configure fs) = none) ∧
  assembleLine .start = some [0x1000000000000000] ∧ assembleLine .finish = some [0x1200000000000000] ∧
  (∀ n : Nat, assembleLine (.word64 n) = if n < 2 ^ 64 then some [BitVec.ofNat 64 n] else none)

/-- R80, R81: the pseudo-instructions are their expansions, and the string form of CALC is one DATA per character, with that
character's ASCII code. How the string's text is read, with ASCII characters and no double quote in it, is the model's choice
(log entry 8); the ASCII code is the spec's own general knowledge. -/
def Obligations.PseudoInstructionsAreTheirExpansions : Prop :=
  (∀ (p i x : Nat) (fs : List Flag),
    assembleLine (.config p i x fs) = assemble [.setpoly p, .setinit i, .setxor x, .configure fs]) ∧
  (∀ bs : List Nat, assembleLine (.calc bs) = assemble (.start :: (bs.map .data ++ [.finish]))) ∧
  (∀ cs : List Char, (∀ c ∈ cs, c.toNat < 128 ∧ c ≠ '"') →
    readLine (['C', 'A', 'L', 'C', ' ', '"'] ++ cs ++ ['"']) = some (some (.calc (cs.map Char.toNat))))
end

