-- ==== Sys2Proof/Laws/Decode.lean ====
section
/-! SUPPORT. Facts about the encoding, through the four fields of a word (spec/30_encoding.md R71). -/

namespace Sys2Proof

/-- A word from its four fields. -/
def fourFields (o : Byte) (r : BitVec 16) (c : Byte) (v : Word) : CmdWord := o ++ r ++ c ++ v

theorem mkWord_eq_fourFields (o c : Byte) (v : Word) : mkWord o c v = fourFields o 0 c v := rfl

/-- Every word is the word of its fields. -/
theorem fourFields_of_fields (cw : CmdWord) :
    fourFields (opcField cw) (cw.extractLsb' 40 16) (cw.extractLsb' 32 8) (imm32Field cw) = cw := by
  unfold fourFields opcField imm32Field
  ext k hk
  simp only [BitVec.getElem_append, BitVec.getElem_extractLsb']
  repeat' split
  all_goals (rw [BitVec.getLsbD_eq_getElem (by omega)]; congr 1; omega)

theorem exists_fourFields (cw : CmdWord) : ∃ o r c v, cw = fourFields o r c v :=
  ⟨_, _, _, _, (fourFields_of_fields cw).symm⟩

theorem getLsbD_fourFields (o : Byte) (r : BitVec 16) (c : Byte) (v : Word) (k : Nat) :
    (fourFields o r c v).getLsbD k =
      if k < 32 then v.getLsbD k else if k < 40 then c.getLsbD (k - 32)
      else if k < 56 then r.getLsbD (k - 40) else o.getLsbD (k - 56) := by
  simp only [fourFields, BitVec.getLsbD_append]
  repeat' split
  all_goals first
    | rfl
    | omega

@[simp] theorem opcField_fourFields (o : Byte) (r : BitVec 16) (c : Byte) (v : Word) :
    opcField (fourFields o r c v) = o := by
  apply BitVec.eq_of_getLsbD_eq
  intro k hk
  simp only [opcField, BitVec.getLsbD_extractLsb', getLsbD_fourFields]
  rw [if_neg (by omega), if_neg (by omega), if_neg (by omega)]
  simp [hk]

@[simp] theorem rsvField_fourFields (o : Byte) (r : BitVec 16) (c : Byte) (v : Word) :
    (fourFields o r c v).extractLsb' 40 16 = r := by
  apply BitVec.eq_of_getLsbD_eq
  intro k hk
  simp only [BitVec.getLsbD_extractLsb', getLsbD_fourFields]
  rw [if_neg (by omega), if_neg (by omega), if_pos (by omega)]
  simp [hk]

@[simp] theorem ctlField_fourFields (o : Byte) (r : BitVec 16) (c : Byte) (v : Word) :
    (fourFields o r c v).extractLsb' 32 8 = c := by
  apply BitVec.eq_of_getLsbD_eq
  intro k hk
  simp only [BitVec.getLsbD_extractLsb', getLsbD_fourFields]
  rw [if_neg (by omega), if_pos (by omega)]
  simp [hk]

@[simp] theorem imm32Field_fourFields (o : Byte) (r : BitVec 16) (c : Byte) (v : Word) :
    imm32Field (fourFields o r c v) = v := by
  apply BitVec.eq_of_getLsbD_eq
  intro k hk
  simp only [imm32Field, BitVec.getLsbD_extractLsb', getLsbD_fourFields]
  rw [if_pos (by omega)]
  simp [hk]

@[simp] theorem imm8Field_fourFields (o : Byte) (r : BitVec 16) (c : Byte) (v : Word) :
    imm8Field (fourFields o r c v) = v.setWidth 8 := by
  apply BitVec.eq_of_getLsbD_eq
  intro k hk
  simp only [imm8Field, BitVec.getLsbD_extractLsb', getLsbD_fourFields]
  rw [if_pos (by omega)]
  simp [hk]

theorem bitField_fourFields (o : Byte) (r : BitVec 16) (c : Byte) (v : Word) (k : Nat) (hk : k < 8) :
    bitField (fourFields o r c v) (32 + k) = c.getLsbD k := by
  simp only [bitField, getLsbD_fourFields]
  rw [if_neg (by omega), if_pos (by omega)]
  simp

theorem fourFields_and (o o' : Byte) (r r' : BitVec 16) (c c' : Byte) (v v' : Word) :
    fourFields o r c v &&& fourFields o' r' c' v' = fourFields (o &&& o') (r &&& r') (c &&& c') (v &&& v') := by
  apply BitVec.eq_of_getLsbD_eq
  intro k _
  simp only [BitVec.getLsbD_and, getLsbD_fourFields]
  repeat' split
  all_goals rfl

theorem fourFields_inj {o o' : Byte} {r r' : BitVec 16} {c c' : Byte} {v v' : Word} :
    fourFields o r c v = fourFields o' r' c' v' ↔ o = o' ∧ r = r' ∧ c = c' ∧ v = v' := by
  constructor
  · intro h
    refine ⟨?_, ?_, ?_, ?_⟩
    · simpa using congrArg opcField h
    · simpa using congrArg (BitVec.extractLsb' 40 16) h
    · simpa using congrArg (BitVec.extractLsb' 32 8) h
    · simpa using congrArg imm32Field h
  · rintro ⟨rfl, rfl, rfl, rfl⟩
    rfl

/-- A mask on the four fields. -/
theorem fourFields_and_eq_iff (o o' : Byte) (r : BitVec 16) (c c' c'' : Byte) (v v' v'' : Word) :
    fourFields o r c v &&& fourFields 255#8 65535#16 c' v' = fourFields o' 0#16 c'' v'' ↔
      o = o' ∧ r = 0#16 ∧ c &&& c' = c'' ∧ v &&& v' = v'' := by
  have ho : o &&& 255#8 = o := by
    have : 255#8 = BitVec.allOnes 8 := by decide
    rw [this, BitVec.and_allOnes]
  have hr : r &&& 65535#16 = r := by
    have : 65535#16 = BitVec.allOnes 16 := by decide
    rw [this, BitVec.and_allOnes]
  rw [fourFields_and, fourFields_inj, ho, hr]

/-- An operand word whose reserved upper bits are zero is its low byte. -/
theorem and_upper_eq_zero_iff (v : Word) : v &&& 0xFFFFFF00 = 0 ↔ (v.setWidth 8).setWidth 32 = v := by
  constructor
  · intro h
    apply BitVec.eq_of_getLsbD_eq
    intro k hk
    by_cases h8 : k < 8
    · simp [h8, hk]
    · have := congrArg (BitVec.getLsbD · k) h
      have hm : (0xFFFFFF00 : Word).getLsbD k = true := by
        have : ∀ k : Fin 32, ¬ k.val < 8 → (0xFFFFFF00 : Word).getLsbD k.val = true := by decide
        exact this ⟨k, hk⟩ h8
      simp only [BitVec.getLsbD_and, hm, Bool.and_true] at this
      simp [h8, this]
  · intro h
    rw [← h]
    apply BitVec.eq_of_getLsbD_eq
    intro k hk
    by_cases h8 : k < 8
    · have hm : (0xFFFFFF00 : Word).getLsbD k = false := by
        have : ∀ k : Fin 8, (0xFFFFFF00 : Word).getLsbD k.val = false := by decide
        exact this ⟨k, h8⟩
      rw [BitVec.getLsbD_and, hm]
      simp
    · simp [h8]

/-! ### The decoder, row by row, on the four fields -/

/-- The decoder on the fields of a word: R75 with the reserved bits of each format (R72) written out. -/
theorem decode_fourFields (o : Byte) (r : BitVec 16) (c : Byte) (v : Word) :
    decode (fourFields o r c v) =
      if o = 0x01 then (if r = 0 ∧ c = 0 then .ok (.setpoly v) else .error .reservedNonzero)
      else if o = 0x02 then (if r = 0 ∧ c = 0 then .ok (.setinit v) else .error .reservedNonzero)
      else if o = 0x03 then (if r = 0 ∧ c = 0 then .ok (.setxor v) else .error .reservedNonzero)
      else if o = 0x04 then (if r = 0 ∧ c &&& 0xF8 = 0 ∧ v = 0 then
        .ok (.configure (c.getLsbD 0) (c.getLsbD 1) (c.getLsbD 2)) else .error .reservedNonzero)
      else if o = 0x10 then (if r = 0 ∧ c = 0 ∧ v = 0 then .ok .start else .error .reservedNonzero)
      else if o = 0x11 then (if r = 0 ∧ c = 0 ∧ v &&& 0xFFFFFF00 = 0 then .ok (.data (v.setWidth 8))
        else .error .reservedNonzero)
      else if o = 0x12 then (if r = 0 ∧ c = 0 ∧ v = 0 then .ok .finish else .error .reservedNonzero)
      else if o = 0x20 then (if r = 0 ∧ c = 0 ∧ v &&& 0xFFFFFF00 = 0 then .ok (.readcfg (v.setWidth 8))
        else .error .reservedNonzero)
      else if o = 0x21 then (if r = 0 ∧ c = 0 ∧ v &&& 0xFFFFFF00 = 0 then .ok (.readlut (v.setWidth 8))
        else .error .reservedNonzero)
      else if o = 0x22 then (if r = 0 ∧ c &&& 0xFE = 0 then .ok (.reflect (c.getLsbD 0) v)
        else .error .reservedNonzero)
      else .error .illegalOpcode := by
  have hc : c &&& 255#8 = c := by
    have : 255#8 = BitVec.allOnes 8 := by decide
    rw [this, BitVec.and_allOnes]
  have hv : v &&& 4294967295#32 = v := by
    have : 4294967295#32 = BitVec.allOnes 32 := by decide
    rw [this, BitVec.and_allOnes]
  have hv0 : v &&& 0#32 = 0#32 := by simp
  have m1 : (0xFFFFFFFF00000000 : CmdWord) = fourFields 255#8 65535#16 255#8 0#32 := by decide
  have m2 : (0xFFFFFFF8FFFFFFFF : CmdWord) = fourFields 255#8 65535#16 248#8 4294967295#32 := by decide
  have m3 : (0xFFFFFFFFFFFFFFFF : CmdWord) = fourFields 255#8 65535#16 255#8 4294967295#32 := by decide
  have m4 : (0xFFFFFFFFFFFFFF00 : CmdWord) = fourFields 255#8 65535#16 255#8 4294967040#32 := by decide
  have m5 : (0xFFFFFFFE00000000 : CmdWord) = fourFields 255#8 65535#16 254#8 0#32 := by decide
  have p1 : (0x0100000000000000 : CmdWord) = fourFields 1#8 0#16 0#8 0#32 := by decide
  have p2 : (0x0200000000000000 : CmdWord) = fourFields 2#8 0#16 0#8 0#32 := by decide
  have p3 : (0x0300000000000000 : CmdWord) = fourFields 3#8 0#16 0#8 0#32 := by decide
  have p4 : (0x0400000000000000 : CmdWord) = fourFields 4#8 0#16 0#8 0#32 := by decide
  have p5 : (0x1000000000000000 : CmdWord) = fourFields 16#8 0#16 0#8 0#32 := by decide
  have p6 : (0x1100000000000000 : CmdWord) = fourFields 17#8 0#16 0#8 0#32 := by decide
  have p7 : (0x1200000000000000 : CmdWord) = fourFields 18#8 0#16 0#8 0#32 := by decide
  have p8 : (0x2000000000000000 : CmdWord) = fourFields 32#8 0#16 0#8 0#32 := by decide
  have p9 : (0x2100000000000000 : CmdWord) = fourFields 33#8 0#16 0#8 0#32 := by decide
  have p10 : (0x2200000000000000 : CmdWord) = fourFields 34#8 0#16 0#8 0#32 := by decide
  have b0 := bitField_fourFields o r c v 0 (by omega)
  have b1 := bitField_fourFields o r c v 1 (by omega)
  have b2 := bitField_fourFields o r c v 2 (by omega)
  simp only [Nat.reduceAdd] at b0 b1 b2
  unfold decode opcodeTable
  rw [m1, m2, m3, m4, m5, p1, p2, p3, p4, p5, p6, p7, p8, p9, p10]
  simp only [List.find?_cons, List.find?_nil, opcField_fourFields]
  by_cases h1 : o = 1#8
  · subst h1; simp [fourFields_and_eq_iff, hc, hv0]
  by_cases h2 : o = 2#8
  · subst h2; simp [fourFields_and_eq_iff, hc, hv0]
  by_cases h3 : o = 3#8
  · subst h3; simp [fourFields_and_eq_iff, hc, hv0]
  by_cases h4 : o = 4#8
  · subst h4; simp [fourFields_and_eq_iff, hv, b0, b1, b2]
  by_cases h5 : o = 16#8
  · subst h5; simp [fourFields_and_eq_iff, hc, hv]
  by_cases h6 : o = 17#8
  · subst h6; simp [fourFields_and_eq_iff, hc]
  by_cases h7 : o = 18#8
  · subst h7; simp [fourFields_and_eq_iff, hc, hv]
  by_cases h8 : o = 32#8
  · subst h8; simp [fourFields_and_eq_iff, hc]
  by_cases h9 : o = 33#8
  · subst h9; simp [fourFields_and_eq_iff, hc]
  by_cases h10 : o = 34#8
  · subst h10; simp [fourFields_and_eq_iff, b0]
  have e : ∀ k : Byte, o ≠ k → (k == o) = false := fun k h => beq_false_of_ne (Ne.symm h)
  simp [e _ h1, e _ h2, e _ h3, e _ h4, e _ h5, e _ h6, e _ h7, e _ h8, e _ h9, e _ h10,
    h1, h2, h3, h4, h5, h6, h7, h8, h9, h10]

/-- An `if` that answers x answers it on one of its sides. -/
theorem ite_eq_cases {α : Type} {p : Prop} [Decidable p] {a b x : α} (h : (if p then a else b) = x) :
    (p ∧ a = x) ∨ (¬ p ∧ b = x) := by
  by_cases hp : p
  · exact .inl ⟨hp, by rwa [if_pos hp] at h⟩
  · exact .inr ⟨hp, by rwa [if_neg hp] at h⟩

/-- A row of the decoder that answers a command passed its check. -/
theorem row_ok {p : Prop} [Decidable p] {j i : Instr}
    (h : (if p then Except.ok j else Except.error DecodeError.reservedNonzero) = Except.ok i) : p ∧ i = j := by
  rcases ite_eq_cases h with ⟨hp, h⟩ | ⟨-, h⟩
  · exact ⟨hp, (Except.ok.inj h).symm⟩
  · cases h

/-- Which words decode, and to what, by their fields. -/
theorem decode_fourFields_ok {o : Byte} {r : BitVec 16} {c : Byte} {v : Word} {i : Instr}
    (h : decode (fourFields o r c v) = .ok i) :
    (o = 0x01 ∧ (r = 0 ∧ c = 0) ∧ i = .setpoly v) ∨
    (o = 0x02 ∧ (r = 0 ∧ c = 0) ∧ i = .setinit v) ∨
    (o = 0x03 ∧ (r = 0 ∧ c = 0) ∧ i = .setxor v) ∨
    (o = 0x04 ∧ (r = 0 ∧ c &&& 0xF8 = 0 ∧ v = 0) ∧ i = .configure (c.getLsbD 0) (c.getLsbD 1) (c.getLsbD 2)) ∨
    (o = 0x10 ∧ (r = 0 ∧ c = 0 ∧ v = 0) ∧ i = .start) ∨
    (o = 0x11 ∧ (r = 0 ∧ c = 0 ∧ v &&& 0xFFFFFF00 = 0) ∧ i = .data (v.setWidth 8)) ∨
    (o = 0x12 ∧ (r = 0 ∧ c = 0 ∧ v = 0) ∧ i = .finish) ∨
    (o = 0x20 ∧ (r = 0 ∧ c = 0 ∧ v &&& 0xFFFFFF00 = 0) ∧ i = .readcfg (v.setWidth 8)) ∨
    (o = 0x21 ∧ (r = 0 ∧ c = 0 ∧ v &&& 0xFFFFFF00 = 0) ∧ i = .readlut (v.setWidth 8)) ∨
    (o = 0x22 ∧ (r = 0 ∧ c &&& 0xFE = 0) ∧ i = .reflect (c.getLsbD 0) v) := by
  rw [decode_fourFields] at h
  rcases ite_eq_cases h with ⟨ho, h⟩ | ⟨-, h⟩
  · exact .inl ⟨ho, row_ok h⟩
  refine .inr ?_
  rcases ite_eq_cases h with ⟨ho, h⟩ | ⟨-, h⟩
  · exact .inl ⟨ho, row_ok h⟩
  refine .inr ?_
  rcases ite_eq_cases h with ⟨ho, h⟩ | ⟨-, h⟩
  · exact .inl ⟨ho, row_ok h⟩
  refine .inr ?_
  rcases ite_eq_cases h with ⟨ho, h⟩ | ⟨-, h⟩
  · exact .inl ⟨ho, row_ok h⟩
  refine .inr ?_
  rcases ite_eq_cases h with ⟨ho, h⟩ | ⟨-, h⟩
  · exact .inl ⟨ho, row_ok h⟩
  refine .inr ?_
  rcases ite_eq_cases h with ⟨ho, h⟩ | ⟨-, h⟩
  · exact .inl ⟨ho, row_ok h⟩
  refine .inr ?_
  rcases ite_eq_cases h with ⟨ho, h⟩ | ⟨-, h⟩
  · exact .inl ⟨ho, row_ok h⟩
  refine .inr ?_
  rcases ite_eq_cases h with ⟨ho, h⟩ | ⟨-, h⟩
  · exact .inl ⟨ho, row_ok h⟩
  refine .inr ?_
  rcases ite_eq_cases h with ⟨ho, h⟩ | ⟨-, h⟩
  · exact .inl ⟨ho, row_ok h⟩
  refine .inr ?_
  rcases ite_eq_cases h with ⟨ho, h⟩ | ⟨-, h⟩
  · exact ⟨ho, row_ok h⟩
  cases h

/-- A control byte whose only operand bits are its low three is made of them. -/
theorem ctl_of_three_bits : ∀ c : Byte, c &&& 0xF8 = 0 →
    ctlBit (c.getLsbD 0) 0 ||| ctlBit (c.getLsbD 1) 1 ||| ctlBit (c.getLsbD 2) 2 = c := by decide

/-- A control byte whose only operand bit is its lowest is made of it. -/
theorem ctl_of_one_bit : ∀ c : Byte, c &&& 0xFE = 0 → ctlBit (c.getLsbD 0) 0 = c := by decide

end Sys2Proof
end

