-- ==== Sys2Proof/Laws/State.lean ====
section
/-! SUPPORT. One lemma per field per named update of the state, each true by unfolding. -/

namespace Sys2Proof.Machine

/-! ### emit -/

@[simp] theorem emit_width (v : Word) (s : State) : (emit v s).width = s.width := rfl
@[simp] theorem emit_polyS (v : Word) (s : State) : (emit v s).polyS = s.polyS := rfl
@[simp] theorem emit_initS (v : Word) (s : State) : (emit v s).initS = s.initS := rfl
@[simp] theorem emit_xorS (v : Word) (s : State) : (emit v s).xorS = s.xorS := rfl
@[simp] theorem emit_poly (v : Word) (s : State) : (emit v s).poly = s.poly := rfl
@[simp] theorem emit_init (v : Word) (s : State) : (emit v s).init = s.init := rfl
@[simp] theorem emit_xorout (v : Word) (s : State) : (emit v s).xorout = s.xorout := rfl
@[simp] theorem emit_refin (v : Word) (s : State) : (emit v s).refin = s.refin := rfl
@[simp] theorem emit_refout (v : Word) (s : State) : (emit v s).refout = s.refout := rfl
@[simp] theorem emit_useLut (v : Word) (s : State) : (emit v s).useLut = s.useLut := rfl
@[simp] theorem emit_configured (v : Word) (s : State) : (emit v s).configured = s.configured := rfl
@[simp] theorem emit_lut (v : Word) (s : State) : (emit v s).lut = s.lut := rfl
@[simp] theorem emit_lutValid (v : Word) (s : State) : (emit v s).lutValid = s.lutValid := rfl
@[simp] theorem emit_acc (v : Word) (s : State) : (emit v s).acc = s.acc := rfl
@[simp] theorem emit_active (v : Word) (s : State) : (emit v s).active = s.active := rfl
@[simp] theorem emit_faulted (v : Word) (s : State) : (emit v s).faulted = s.faulted := rfl
@[simp] theorem emit_errCode (v : Word) (s : State) : (emit v s).errCode = s.errCode := rfl
@[simp] theorem emit_errCmd (v : Word) (s : State) : (emit v s).errCmd = s.errCmd := rfl
@[simp] theorem emit_resp (v : Word) (s : State) : (emit v s).resp = s.resp ++ [v] := rfl
@[simp] theorem emit_waiting (v : Word) (s : State) : (emit v s).waiting = s.waiting + 1 := rfl
@[simp] theorem emit_inputs (v : Word) (s : State) : (emit v s).inputs = s.inputs := rfl

/-! ### takeResponse -/

@[simp] theorem takeResponse_width (s : State) : (takeResponse s).width = s.width := rfl
@[simp] theorem takeResponse_polyS (s : State) : (takeResponse s).polyS = s.polyS := rfl
@[simp] theorem takeResponse_initS (s : State) : (takeResponse s).initS = s.initS := rfl
@[simp] theorem takeResponse_xorS (s : State) : (takeResponse s).xorS = s.xorS := rfl
@[simp] theorem takeResponse_poly (s : State) : (takeResponse s).poly = s.poly := rfl
@[simp] theorem takeResponse_init (s : State) : (takeResponse s).init = s.init := rfl
@[simp] theorem takeResponse_xorout (s : State) : (takeResponse s).xorout = s.xorout := rfl
@[simp] theorem takeResponse_refin (s : State) : (takeResponse s).refin = s.refin := rfl
@[simp] theorem takeResponse_refout (s : State) : (takeResponse s).refout = s.refout := rfl
@[simp] theorem takeResponse_useLut (s : State) : (takeResponse s).useLut = s.useLut := rfl
@[simp] theorem takeResponse_configured (s : State) : (takeResponse s).configured = s.configured := rfl
@[simp] theorem takeResponse_lut (s : State) : (takeResponse s).lut = s.lut := rfl
@[simp] theorem takeResponse_lutValid (s : State) : (takeResponse s).lutValid = s.lutValid := rfl
@[simp] theorem takeResponse_acc (s : State) : (takeResponse s).acc = s.acc := rfl
@[simp] theorem takeResponse_active (s : State) : (takeResponse s).active = s.active := rfl
@[simp] theorem takeResponse_faulted (s : State) : (takeResponse s).faulted = s.faulted := rfl
@[simp] theorem takeResponse_errCode (s : State) : (takeResponse s).errCode = s.errCode := rfl
@[simp] theorem takeResponse_errCmd (s : State) : (takeResponse s).errCmd = s.errCmd := rfl
@[simp] theorem takeResponse_resp (s : State) : (takeResponse s).resp = s.resp := rfl
@[simp] theorem takeResponse_waiting (s : State) : (takeResponse s).waiting = s.waiting - 1 := rfl
@[simp] theorem takeResponse_inputs (s : State) : (takeResponse s).inputs = s.inputs := rfl

/-! ### responsesTaken -/

@[simp] theorem responsesTaken_width (s : State) : (responsesTaken s).width = s.width := rfl
@[simp] theorem responsesTaken_polyS (s : State) : (responsesTaken s).polyS = s.polyS := rfl
@[simp] theorem responsesTaken_initS (s : State) : (responsesTaken s).initS = s.initS := rfl
@[simp] theorem responsesTaken_xorS (s : State) : (responsesTaken s).xorS = s.xorS := rfl
@[simp] theorem responsesTaken_poly (s : State) : (responsesTaken s).poly = s.poly := rfl
@[simp] theorem responsesTaken_init (s : State) : (responsesTaken s).init = s.init := rfl
@[simp] theorem responsesTaken_xorout (s : State) : (responsesTaken s).xorout = s.xorout := rfl
@[simp] theorem responsesTaken_refin (s : State) : (responsesTaken s).refin = s.refin := rfl
@[simp] theorem responsesTaken_refout (s : State) : (responsesTaken s).refout = s.refout := rfl
@[simp] theorem responsesTaken_useLut (s : State) : (responsesTaken s).useLut = s.useLut := rfl
@[simp] theorem responsesTaken_configured (s : State) : (responsesTaken s).configured = s.configured := rfl
@[simp] theorem responsesTaken_lut (s : State) : (responsesTaken s).lut = s.lut := rfl
@[simp] theorem responsesTaken_lutValid (s : State) : (responsesTaken s).lutValid = s.lutValid := rfl
@[simp] theorem responsesTaken_acc (s : State) : (responsesTaken s).acc = s.acc := rfl
@[simp] theorem responsesTaken_active (s : State) : (responsesTaken s).active = s.active := rfl
@[simp] theorem responsesTaken_faulted (s : State) : (responsesTaken s).faulted = s.faulted := rfl
@[simp] theorem responsesTaken_errCode (s : State) : (responsesTaken s).errCode = s.errCode := rfl
@[simp] theorem responsesTaken_errCmd (s : State) : (responsesTaken s).errCmd = s.errCmd := rfl
@[simp] theorem responsesTaken_resp (s : State) : (responsesTaken s).resp = s.resp := rfl
@[simp] theorem responsesTaken_waiting (s : State) : (responsesTaken s).waiting = 0 := rfl
@[simp] theorem responsesTaken_inputs (s : State) : (responsesTaken s).inputs = s.inputs := rfl

/-! ### errorEntry -/

@[simp] theorem errorEntry_width (c : ErrorCode) (cw : CmdWord) (s : State) : (errorEntry c cw s).width = s.width := rfl
@[simp] theorem errorEntry_polyS (c : ErrorCode) (cw : CmdWord) (s : State) : (errorEntry c cw s).polyS = s.polyS := rfl
@[simp] theorem errorEntry_initS (c : ErrorCode) (cw : CmdWord) (s : State) : (errorEntry c cw s).initS = s.initS := rfl
@[simp] theorem errorEntry_xorS (c : ErrorCode) (cw : CmdWord) (s : State) : (errorEntry c cw s).xorS = s.xorS := rfl
@[simp] theorem errorEntry_poly (c : ErrorCode) (cw : CmdWord) (s : State) : (errorEntry c cw s).poly = s.poly := rfl
@[simp] theorem errorEntry_init (c : ErrorCode) (cw : CmdWord) (s : State) : (errorEntry c cw s).init = s.init := rfl
@[simp] theorem errorEntry_xorout (c : ErrorCode) (cw : CmdWord) (s : State) : (errorEntry c cw s).xorout = s.xorout := rfl
@[simp] theorem errorEntry_refin (c : ErrorCode) (cw : CmdWord) (s : State) : (errorEntry c cw s).refin = s.refin := rfl
@[simp] theorem errorEntry_refout (c : ErrorCode) (cw : CmdWord) (s : State) : (errorEntry c cw s).refout = s.refout := rfl
@[simp] theorem errorEntry_useLut (c : ErrorCode) (cw : CmdWord) (s : State) : (errorEntry c cw s).useLut = s.useLut := rfl
@[simp] theorem errorEntry_configured (c : ErrorCode) (cw : CmdWord) (s : State) : (errorEntry c cw s).configured = s.configured := rfl
@[simp] theorem errorEntry_lut (c : ErrorCode) (cw : CmdWord) (s : State) : (errorEntry c cw s).lut = s.lut := rfl
@[simp] theorem errorEntry_lutValid (c : ErrorCode) (cw : CmdWord) (s : State) : (errorEntry c cw s).lutValid = s.lutValid := rfl
@[simp] theorem errorEntry_acc (c : ErrorCode) (cw : CmdWord) (s : State) : (errorEntry c cw s).acc = s.acc := rfl
@[simp] theorem errorEntry_active (c : ErrorCode) (cw : CmdWord) (s : State) : (errorEntry c cw s).active = s.active := rfl
@[simp] theorem errorEntry_faulted (c : ErrorCode) (cw : CmdWord) (s : State) : (errorEntry c cw s).faulted = true := rfl
@[simp] theorem errorEntry_errCode (c : ErrorCode) (cw : CmdWord) (s : State) : (errorEntry c cw s).errCode = c.byte := rfl
@[simp] theorem errorEntry_errCmd (c : ErrorCode) (cw : CmdWord) (s : State) : (errorEntry c cw s).errCmd = cw := rfl
@[simp] theorem errorEntry_resp (c : ErrorCode) (cw : CmdWord) (s : State) : (errorEntry c cw s).resp = s.resp := rfl
@[simp] theorem errorEntry_waiting (c : ErrorCode) (cw : CmdWord) (s : State) : (errorEntry c cw s).waiting = s.waiting := rfl
@[simp] theorem errorEntry_inputs (c : ErrorCode) (cw : CmdWord) (s : State) : (errorEntry c cw s).inputs = s.inputs := rfl

/-! ### commit -/

@[simp] theorem commit_width (ri ro ul : Bool) (s : State) : (commit ri ro ul s).width = s.width := rfl
@[simp] theorem commit_polyS (ri ro ul : Bool) (s : State) : (commit ri ro ul s).polyS = s.polyS := rfl
@[simp] theorem commit_initS (ri ro ul : Bool) (s : State) : (commit ri ro ul s).initS = s.initS := rfl
@[simp] theorem commit_xorS (ri ro ul : Bool) (s : State) : (commit ri ro ul s).xorS = s.xorS := rfl
@[simp] theorem commit_poly (ri ro ul : Bool) (s : State) : (commit ri ro ul s).poly = trunc s.width s.polyS := rfl
@[simp] theorem commit_init (ri ro ul : Bool) (s : State) : (commit ri ro ul s).init = trunc s.width s.initS := rfl
@[simp] theorem commit_xorout (ri ro ul : Bool) (s : State) : (commit ri ro ul s).xorout = trunc s.width s.xorS := rfl
@[simp] theorem commit_refin (ri ro ul : Bool) (s : State) : (commit ri ro ul s).refin = ri := rfl
@[simp] theorem commit_refout (ri ro ul : Bool) (s : State) : (commit ri ro ul s).refout = ro := rfl
@[simp] theorem commit_useLut (ri ro ul : Bool) (s : State) : (commit ri ro ul s).useLut = ul := rfl
@[simp] theorem commit_configured (ri ro ul : Bool) (s : State) : (commit ri ro ul s).configured = true := rfl
@[simp] theorem commit_lut (ri ro ul : Bool) (s : State) : (commit ri ro ul s).lut = if ul then buildLut s.width (trunc s.width s.polyS) else emptyLut := rfl
@[simp] theorem commit_lutValid (ri ro ul : Bool) (s : State) : (commit ri ro ul s).lutValid = ul := rfl
@[simp] theorem commit_acc (ri ro ul : Bool) (s : State) : (commit ri ro ul s).acc = s.acc := rfl
@[simp] theorem commit_active (ri ro ul : Bool) (s : State) : (commit ri ro ul s).active = s.active := rfl
@[simp] theorem commit_faulted (ri ro ul : Bool) (s : State) : (commit ri ro ul s).faulted = s.faulted := rfl
@[simp] theorem commit_errCode (ri ro ul : Bool) (s : State) : (commit ri ro ul s).errCode = s.errCode := rfl
@[simp] theorem commit_errCmd (ri ro ul : Bool) (s : State) : (commit ri ro ul s).errCmd = s.errCmd := rfl
@[simp] theorem commit_resp (ri ro ul : Bool) (s : State) : (commit ri ro ul s).resp = s.resp := rfl
@[simp] theorem commit_waiting (ri ro ul : Bool) (s : State) : (commit ri ro ul s).waiting = s.waiting := rfl
@[simp] theorem commit_inputs (ri ro ul : Bool) (s : State) : (commit ri ro ul s).inputs = s.inputs := rfl

/-! ### openSession -/

@[simp] theorem openSession_width (s : State) : (openSession s).width = s.width := rfl
@[simp] theorem openSession_polyS (s : State) : (openSession s).polyS = s.polyS := rfl
@[simp] theorem openSession_initS (s : State) : (openSession s).initS = s.initS := rfl
@[simp] theorem openSession_xorS (s : State) : (openSession s).xorS = s.xorS := rfl
@[simp] theorem openSession_poly (s : State) : (openSession s).poly = s.poly := rfl
@[simp] theorem openSession_init (s : State) : (openSession s).init = s.init := rfl
@[simp] theorem openSession_xorout (s : State) : (openSession s).xorout = s.xorout := rfl
@[simp] theorem openSession_refin (s : State) : (openSession s).refin = s.refin := rfl
@[simp] theorem openSession_refout (s : State) : (openSession s).refout = s.refout := rfl
@[simp] theorem openSession_useLut (s : State) : (openSession s).useLut = s.useLut := rfl
@[simp] theorem openSession_configured (s : State) : (openSession s).configured = s.configured := rfl
@[simp] theorem openSession_lut (s : State) : (openSession s).lut = s.lut := rfl
@[simp] theorem openSession_lutValid (s : State) : (openSession s).lutValid = s.lutValid := rfl
@[simp] theorem openSession_acc (s : State) : (openSession s).acc = some s.init := rfl
@[simp] theorem openSession_active (s : State) : (openSession s).active = true := rfl
@[simp] theorem openSession_faulted (s : State) : (openSession s).faulted = s.faulted := rfl
@[simp] theorem openSession_errCode (s : State) : (openSession s).errCode = s.errCode := rfl
@[simp] theorem openSession_errCmd (s : State) : (openSession s).errCmd = s.errCmd := rfl
@[simp] theorem openSession_resp (s : State) : (openSession s).resp = s.resp := rfl
@[simp] theorem openSession_waiting (s : State) : (openSession s).waiting = s.waiting := rfl
@[simp] theorem openSession_inputs (s : State) : (openSession s).inputs = s.inputs := rfl

/-! ### resetFrom -/

@[simp] theorem resetFrom_width (s : State) : (resetFrom s).width = s.width := rfl
@[simp] theorem resetFrom_polyS (s : State) : (resetFrom s).polyS = 0 := rfl
@[simp] theorem resetFrom_initS (s : State) : (resetFrom s).initS = 0 := rfl
@[simp] theorem resetFrom_xorS (s : State) : (resetFrom s).xorS = 0 := rfl
@[simp] theorem resetFrom_poly (s : State) : (resetFrom s).poly = 0 := rfl
@[simp] theorem resetFrom_init (s : State) : (resetFrom s).init = 0 := rfl
@[simp] theorem resetFrom_xorout (s : State) : (resetFrom s).xorout = 0 := rfl
@[simp] theorem resetFrom_refin (s : State) : (resetFrom s).refin = false := rfl
@[simp] theorem resetFrom_refout (s : State) : (resetFrom s).refout = false := rfl
@[simp] theorem resetFrom_useLut (s : State) : (resetFrom s).useLut = false := rfl
@[simp] theorem resetFrom_configured (s : State) : (resetFrom s).configured = false := rfl
@[simp] theorem resetFrom_lut (s : State) : (resetFrom s).lut = emptyLut := rfl
@[simp] theorem resetFrom_lutValid (s : State) : (resetFrom s).lutValid = false := rfl
@[simp] theorem resetFrom_acc (s : State) : (resetFrom s).acc = none := rfl
@[simp] theorem resetFrom_active (s : State) : (resetFrom s).active = false := rfl
@[simp] theorem resetFrom_faulted (s : State) : (resetFrom s).faulted = false := rfl
@[simp] theorem resetFrom_errCode (s : State) : (resetFrom s).errCode = 0x00 := rfl
@[simp] theorem resetFrom_errCmd (s : State) : (resetFrom s).errCmd = 0 := rfl
@[simp] theorem resetFrom_resp (s : State) : (resetFrom s).resp = s.resp.take (s.resp.length - s.waiting) := rfl
@[simp] theorem resetFrom_waiting (s : State) : (resetFrom s).waiting = 0 := rfl
@[simp] theorem resetFrom_inputs (s : State) : (resetFrom s).inputs = s.inputs := rfl

end Sys2Proof.Machine
end

