-- ==== Sys2Proof/Laws/Words.lean ====
section
/-! SUPPORT. Truncation to W bits and the placement of a byte at the top of the register (spec/00_scope.md R12). -/

namespace Sys2Proof.Machine

theorem Width.bits_cases (w : Width) : w.bits = 8 ∨ w.bits = 16 ∨ w.bits = 32 := by
  cases w <;> simp [Width.bits]

theorem Width.bits_le (w : Width) : w.bits ≤ 32 := by cases w <;> decide

theorem Width.le_bits (w : Width) : 8 ≤ w.bits := by cases w <;> decide

/-! ### trunc -/

theorem toNat_trunc (w : Width) (v : Word) : (trunc w v).toNat = v.toNat % 2 ^ w.bits := by
  have hm : (maskOf w).toNat = 2 ^ w.bits - 1 := by cases w <;> decide
  rw [trunc, BitVec.toNat_and, hm, Nat.and_two_pow_sub_one_eq_mod]

theorem trunc_lt (w : Width) (v : Word) : (trunc w v).toNat < 2 ^ w.bits := by
  rw [toNat_trunc]
  exact Nat.mod_lt _ (Nat.two_pow_pos _)

theorem trunc_of_lt {w : Width} {v : Word} (h : v.toNat < 2 ^ w.bits) : trunc w v = v :=
  BitVec.eq_of_toNat_eq (by rw [toNat_trunc, Nat.mod_eq_of_lt h])

theorem getLsbD_trunc (w : Width) (v : Word) (k : Nat) :
    (trunc w v).getLsbD k = (decide (k < w.bits) && v.getLsbD k) := by
  rw [← BitVec.testBit_toNat, toNat_trunc, Nat.testBit_mod_two_pow, BitVec.testBit_toNat]

theorem trunc_xor (w : Width) (a b : Word) : trunc w (a ^^^ b) = trunc w a ^^^ trunc w b := by
  apply BitVec.eq_of_getLsbD_eq
  intro k _
  simp only [getLsbD_trunc, BitVec.getLsbD_xor]
  cases decide (k < w.bits) <;> simp

theorem trunc_zero (w : Width) : trunc w 0 = 0 := by cases w <;> decide

/-- The same in simp's form of the literal. -/
@[simp] theorem trunc_zero_lit (w : Width) : trunc w 0#32 = 0#32 := trunc_zero w

@[simp] theorem trunc_trunc (w : Width) (v : Word) : trunc w (trunc w v) = trunc w v := trunc_of_lt (trunc_lt w v)

theorem xor_lt {w : Width} {a b : Word} (ha : a.toNat < 2 ^ w.bits) (hb : b.toNat < 2 ^ w.bits) :
    (a ^^^ b).toNat < 2 ^ w.bits := by
  rw [BitVec.toNat_xor]
  exact Nat.xor_lt_two_pow ha hb

/-- Below 2^n is: no bit from n on. -/
theorem lt_two_pow_iff (n : Nat) (v : Word) : v.toNat < 2 ^ n ↔ ∀ k, n ≤ k → v.getLsbD k = false := by
  constructor
  · intro h k hk
    rw [← BitVec.testBit_toNat]
    exact Nat.testBit_lt_two_pow (lt_of_lt_of_le h (Nat.pow_le_pow_right (by omega) hk))
  · intro h
    apply Nat.lt_pow_two_of_testBit
    intro k hk
    rw [BitVec.testBit_toNat]
    exact h k hk

/-! ### topByte -/

theorem getLsbD_topByte (w : Width) (b : Byte) (k : Nat) :
    (topByte w b).getLsbD k = (decide (w.bits - 8 ≤ k) && b.getLsbD (k - (w.bits - 8))) := by
  have h1 := Width.bits_le w
  have h2 := Width.le_bits w
  simp only [topByte, zextByte, BitVec.getLsbD_shiftLeft, BitVec.getLsbD_setWidth]
  by_cases hk : w.bits - 8 ≤ k
  · by_cases h8 : k - (w.bits - 8) < 8
    · have a1 : k < 32 := by omega
      have a2 : k - (w.bits - 8) < 32 := by omega
      have a3 : ¬ k < w.bits - 8 := by omega
      simp [hk, a1, a2, a3]
    · rw [BitVec.getLsbD_of_ge b _ (by omega)]
      simp
  · have a3 : k < w.bits - 8 := by omega
    simp [a3, hk]

theorem topByte_lt (w : Width) (b : Byte) : (topByte w b).toNat < 2 ^ w.bits := by
  rw [lt_two_pow_iff]
  intro k hk
  have := Width.le_bits w
  rw [getLsbD_topByte, BitVec.getLsbD_of_ge b _ (by omega)]
  simp

theorem topByte_xor (w : Width) (a b : Byte) : topByte w (a ^^^ b) = topByte w a ^^^ topByte w b := by
  apply BitVec.eq_of_getLsbD_eq
  intro k _
  simp only [getLsbD_topByte, BitVec.getLsbD_xor]
  cases decide (w.bits - 8 ≤ k) <;> simp

theorem topByte_zero (w : Width) : topByte w 0 = 0 := by cases w <;> decide

/-- The same in simp's form of the literal. -/
@[simp] theorem topByte_zero_lit (w : Width) : topByte w 0#8 = 0#32 := topByte_zero w

/-! ### The table as a vector -/

@[simp] theorem lutAt_emptyLut (i : Byte) : lutAt emptyLut i = none := by
  simp [lutAt, emptyLut]

@[simp] theorem lutAt_buildLut (w : Width) (poly : Word) (i : Byte) :
    lutAt (buildLut w poly) i = some (buildEntry w poly i) := by
  simp [lutAt, buildLut, BitVec.ofNat_toNat]

/-- A table is its 256 entries. -/
theorem lut_ext {l l' : Vector (Option Word) 256} (h : ∀ i : Byte, lutAt l i = lutAt l' i) : l = l' := by
  apply Vector.ext
  intro k hk
  have := h (BitVec.ofNat 8 k)
  simp only [lutAt, BitVec.toNat_ofNat] at this
  simpa [Nat.mod_eq_of_lt hk] using this

end Sys2Proof.Machine
end

