-- ==== Sys2Proof/Laws/Ops.lean ====
section
/-! SUPPORT. One lemma per shared operation: everything it can do. -/

namespace Sys2Proof.Machine

/-! ### Checks and errors -/

@[simp] theorem firstError_nil : firstError [] = none := rfl

@[simp] theorem firstError_cons (bad : Bool) (code : ErrorCode) (rest : List (Bool × ErrorCode)) :
    firstError ((bad, code) :: rest) = if bad then some code else firstError rest := rfl

/-- The first error is that of some failing check. -/
theorem mem_of_firstError {checks : List (Bool × ErrorCode)} {code : ErrorCode} (h : firstError checks = some code) :
    (true, code) ∈ checks := by
  induction checks with
  | nil => simp at h
  | cons head rest ih =>
    obtain ⟨bad, c⟩ := head
    cases bad with
    | true => simp at h; simp [h]
    | false => simp at h; exact List.mem_cons_of_mem _ (ih h)

/-- There is no error when every check passes. -/
theorem firstError_eq_none_iff {checks : List (Bool × ErrorCode)} :
    firstError checks = none ↔ ∀ p ∈ checks, p.1 = false := by
  induction checks with
  | nil => simp
  | cons head rest ih =>
    obtain ⟨bad, c⟩ := head
    cases bad <;> simp [ih]

theorem raiseError_of_faulted {code : ErrorCode} {cw : CmdWord} {s : State} (h : s.faulted = true) :
    raiseError code cw s = s := by simp [raiseError, h]

theorem raiseError_of_live {code : ErrorCode} {cw : CmdWord} {s : State} (h : s.faulted = false) :
    raiseError code cw s = errorEntry code cw s := by simp [raiseError, h]

/-- A command's run, outcome by outcome (R219, R220, R221). -/
theorem runChecked_eq (cw : CmdWord) (checks : List (Bool × ErrorCode)) (s : State) (effect : Result) :
    runChecked cw checks s effect =
      if s.faulted then .next s
      else match firstError checks with
        | some code => .next (errorEntry code cw s)
        | none => effect := by
  unfold runChecked
  split
  · rfl
  · rename_i h
    cases firstError checks with
    | none => rfl
    | some code => simp [raiseError_of_live (Bool.eq_false_iff.mpr h)]

/-- Where a command's run leads, when it leads to a next state. -/
theorem runChecked_next {cw : CmdWord} {checks : List (Bool × ErrorCode)} {s t : State} {effect : Result}
    (h : runChecked cw checks s effect = .next t) :
    (s.faulted = true ∧ t = s) ∨
    (s.faulted = false ∧ ∃ code, firstError checks = some code ∧ t = errorEntry code cw s) ∨
    (s.faulted = false ∧ firstError checks = none ∧ effect = .next t) := by
  rw [runChecked_eq] at h
  cases hf : s.faulted with
  | true => left; simp [hf] at h; exact ⟨rfl, h.symm⟩
  | false =>
    right
    cases he : firstError checks with
    | some code => left; simp [hf, he] at h; exact ⟨rfl, code, rfl, h.symm⟩
    | none => right; simp [hf, he] at h; exact ⟨rfl, rfl, h⟩

/-! ### Sessions -/

/-- DATA's effect leads to a next state exactly where ACC and the entry it reads are present, and then only ACC changes. -/
theorem feedByte_next_iff {b : Byte} {s t : State} :
    feedByte b s = .next t ↔
      ∃ a v, s.acc = some a ∧ updatedAcc s a (inputByte s.refin b) = some v ∧ t = { s with acc := some v } := by
  unfold feedByte
  cases s.acc with
  | none => simp
  | some a =>
    cases hu : updatedAcc s a (inputByte s.refin b) with
    | none => simp [hu]
    | some v => simp [hu, eq_comm]

/-- FINISH's effect leads to a next state exactly where ACC is present. -/
theorem closeSession_next_iff {s t : State} :
    closeSession s = .next t ↔
      ∃ a, s.acc = some a ∧
        t = { s with acc := none, active := false, waiting := s.waiting + 1,
                     resp := s.resp ++ [trunc s.width (outputValue s.width s.refout a ^^^ s.xorout)] } := by
  unfold closeSession emit
  cases s.acc with
  | none => simp
  | some a => simp [eq_comm]

/-- On the direct path the new value of ACC is always there. -/
theorem updatedAcc_direct {s : State} (h : s.useLut = false) (a : Word) (temp : Byte) :
    updatedAcc s a temp = some (directUpdate s.width s.poly a temp) := by simp [updatedAcc, h]

/-- On the LUT path it is there when the entry is. -/
theorem updatedAcc_lut {s : State} (h : s.useLut = true) {a e : Word} {temp : Byte}
    (he : lutAt s.lut (lutIndex s.width a temp) = some e) :
    updatedAcc s a temp = some (lutUpdate s.width a e) := by simp [updatedAcc, h, he]

end Sys2Proof.Machine
end

