-- ==== Sys2Proof/Laws/Meanings.lean ====
section
/-! SUPPORT. One equation per command: its meaning with its checks in order, which callers cite instead of unfolding it. -/

namespace Sys2Proof.Machine

theorem exec_setpoly (v : Word) (s : State) :
    exec (.setpoly v) s = if s.faulted then .next s else .next { s with polyS := v } := by
  simp [exec, execSetpoly, runChecked_eq]

theorem exec_setinit (v : Word) (s : State) :
    exec (.setinit v) s = if s.faulted then .next s else .next { s with initS := v } := by
  simp [exec, execSetinit, runChecked_eq]

theorem exec_setxor (v : Word) (s : State) :
    exec (.setxor v) s = if s.faulted then .next s else .next { s with xorS := v } := by
  simp [exec, execSetxor, runChecked_eq]

theorem exec_configure (ri ro ul : Bool) (s : State) :
    exec (.configure ri ro ul) s =
      if s.faulted then .next s
      else if s.active then .next (errorEntry .sessionActive (encode (.configure ri ro ul)) s)
      else .next (commit ri ro ul s) := by
  simp only [exec, execConfigure, runChecked_eq, firstError_cons, firstError_nil]
  cases s.faulted <;> cases s.active <;> rfl

theorem exec_start (s : State) :
    exec .start s =
      if s.faulted then .next s
      else if !s.configured then .next (errorEntry .notConfigured (encode .start) s)
      else if s.active then .next (errorEntry .sessionActive (encode .start) s)
      else .next (openSession s) := by
  simp only [exec, execStart, runChecked_eq, firstError_cons, firstError_nil]
  cases s.faulted <;> cases s.configured <;> cases s.active <;> rfl

theorem exec_data (b : Byte) (s : State) :
    exec (.data b) s =
      if s.faulted then .next s
      else if !s.configured then .next (errorEntry .notConfigured (encode (.data b)) s)
      else if !s.active then .next (errorEntry .noSession (encode (.data b)) s)
      else feedByte b s := by
  simp only [exec, execData, runChecked_eq, firstError_cons, firstError_nil]
  cases s.faulted <;> cases s.configured <;> cases s.active <;> rfl

theorem exec_finish (s : State) :
    exec .finish s =
      if s.faulted then .next s
      else if !s.configured then .next (errorEntry .notConfigured (encode .finish) s)
      else if !s.active then .next (errorEntry .noSession (encode .finish) s)
      else closeSession s := by
  simp only [exec, execFinish, runChecked_eq, firstError_cons, firstError_nil]
  cases s.faulted <;> cases s.configured <;> cases s.active <;> rfl

theorem exec_readcfg (sel : Byte) (s : State) :
    exec (.readcfg sel) s =
      match cfgWord s sel with
      | some v => .next (emit v s)
      | none => if s.faulted then .next s else .next (errorEntry .badSelector (encode (.readcfg sel)) s) := by
  simp only [exec, execReadcfg, raiseError]
  cases cfgWord s sel <;> cases s.faulted <;> rfl

theorem exec_readlut (idx : Byte) (s : State) :
    exec (.readlut idx) s =
      if s.faulted then .next s
      else if !s.configured then .next (errorEntry .notConfigured (encode (.readlut idx)) s)
      else if !s.lutValid then .next (errorEntry .noTable (encode (.readlut idx)) s)
      else match lutAt s.lut idx with
        | some v => .next (emit v s)
        | none => .fault .absentLutEntry := by
  simp only [exec, execReadlut, runChecked_eq, firstError_cons, firstError_nil]
  cases s.faulted <;> cases s.configured <;> cases s.lutValid <;> rfl

theorem exec_reflect (bm : Bool) (v : Word) (s : State) :
    exec (.reflect bm v) s =
      if s.faulted then .next s else .next (emit (reflectOperand s.width bm v) s) := by
  simp [exec, execReflect, runChecked_eq]

/-- A selector has a word exactly when it is 0 to 10 (R191). -/
theorem cfgWord_isSome_iff (s : State) (sel : Byte) : (cfgWord s sel).isSome = true ↔ sel.toNat ≤ 10 := by
  unfold cfgWord
  split
  case h_12 h0 h1 h2 h3 h4 h5 h6 h7 h8 h9 h10 =>
    simp only [Option.isSome_none, Bool.false_eq_true, false_iff]
    intro h
    have : sel.toNat = 0 ∨ sel.toNat = 1 ∨ sel.toNat = 2 ∨ sel.toNat = 3 ∨ sel.toNat = 4 ∨ sel.toNat = 5 ∨
        sel.toNat = 6 ∨ sel.toNat = 7 ∨ sel.toNat = 8 ∨ sel.toNat = 9 ∨ sel.toNat = 10 := by omega
    simp_all
  all_goals rename_i h; simp [h]

/-- Accepting a word that decodes. -/
theorem acceptWord_of_decode {cw : CmdWord} {i : Instr} (h : decode cw = .ok i) (s : State) :
    acceptWord cw s = exec i s := by simp [acceptWord, h]

/-- Accepting a word that is no command. -/
theorem acceptWord_of_error {cw : CmdWord} {e : DecodeError} (h : decode cw = .error e) (s : State) :
    acceptWord cw s = .next (raiseError (decodeErrorCode e) cw s) := by simp [acceptWord, h]

/-- A step, by the host's next move (R250). -/
theorem step_eq (s : State) :
    step s =
      match s.inputs with
      | [] => .next s
      | .command cw :: rest =>
        if s.AcceptsCommand then acceptWord cw { s with inputs := rest } else .next (takeResponse s)
      | .reset :: rest => .next (resetFrom { s with inputs := rest })
      | .takeResponse :: rest => .next (takeResponse { s with inputs := rest }) := by
  unfold step nextInput meetCommand
  rcases s.inputs with _ | ⟨_ | _ | _, rest⟩ <;> rfl

/-- A run of words, one after the other. -/
theorem acceptWords_append (ws ws' : List CmdWord) (s : State) :
    acceptWords (ws ++ ws') s =
      match acceptWords ws s with
      | .next t => acceptWords ws' t
      | .fault r => .fault r
      | .refused r => .refused r := by
  induction ws generalizing s with
  | nil => rfl
  | cons cw rest ih =>
    simp only [List.cons_append, acceptWords]
    cases acceptWord cw (responsesTaken s) with
    | next t => exact ih t
    | fault r => rfl
    | refused r => rfl

end Sys2Proof.Machine
end

