-- ==== Sys2Proof/Laws/PerInstr.lean ====
section
/-! SUPPORT. One lemma per command, all of one form: the command's word lies in the command's own row of the opcode table
(spec/30_encoding.md R73, R74). -/

namespace Sys2Proof.Laws.EncodeInRow

/-- The table has a row with the opcode of the command, whose mask is that of its format; the word of the command has that
opcode and, under the mask, the row's pattern. -/
def Statement (i : Instr) : Prop :=
  ∃ r ∈ opcodeTable, r.opc = i.opc ∧ r.mask = r.format.mask ∧ opcField (encode i) = r.opc ∧
    encode i &&& r.mask = r.pattern

theorem of_fields {i : Instr} {o c c' : Byte} {v v' : Word} {m p : CmdWord} (hi : encode i = fourFields o 0#16 c v)
    (hm : m = fourFields 255#8 65535#16 c' v') (hp : p = fourFields o 0#16 (c &&& c') (v &&& v')) :
    opcField (encode i) = o ∧ encode i &&& m = p := by
  rw [hi, hm, hp, fourFields_and_eq_iff]
  exact ⟨opcField_fourFields _ _ _ _, rfl, rfl, rfl, rfl⟩

theorem byte_below (b : Byte) : b.setWidth 32 &&& 0xFFFFFF00#32 = 0#32 := by
  refine (and_upper_eq_zero_iff (b.setWidth 32)).mpr ?_
  apply BitVec.eq_of_toNat_eq
  have := b.isLt
  simp

theorem of_row {i : Instr} (k : Fin 10) (h1 : opcodeTable[k].opc = i.opc)
    (h2 : opcodeTable[k].mask = opcodeTable[k].format.mask)
    (h : opcField (encode i) = opcodeTable[k].opc ∧ encode i &&& opcodeTable[k].mask = opcodeTable[k].pattern) :
    Statement i :=
  ⟨_, List.getElem_mem (by exact k.isLt), h1, h2, h.1, h.2⟩

theorem setpoly (v : Word) : Statement (.setpoly v) :=
  of_row 0 rfl rfl (of_fields (c := 0) (v := v) (c' := 255#8) (v' := 0#32) rfl (by decide)
    (by rw [BitVec.and_zero]; decide))

theorem setinit (v : Word) : Statement (.setinit v) :=
  of_row 1 rfl rfl (of_fields (c := 0) (v := v) (c' := 255#8) (v' := 0#32) rfl (by decide)
    (by rw [BitVec.and_zero]; decide))

theorem setxor (v : Word) : Statement (.setxor v) :=
  of_row 2 rfl rfl (of_fields (c := 0) (v := v) (c' := 255#8) (v' := 0#32) rfl (by decide)
    (by rw [BitVec.and_zero]; decide))

theorem configure (ri ro ul : Bool) : Statement (.configure ri ro ul) :=
  of_row 3 rfl rfl (of_fields (c := ctlBit ri 0 ||| ctlBit ro 1 ||| ctlBit ul 2) (v := 0#32) (c' := 248#8)
    (v' := 4294967295#32) rfl (by decide) (by cases ri <;> cases ro <;> cases ul <;> decide))

theorem start : Statement .start :=
  of_row 4 rfl rfl (of_fields (c := 0) (v := 0#32) (c' := 255#8) (v' := 4294967295#32) rfl (by decide) (by decide))

theorem data (b : Byte) : Statement (.data b) :=
  of_row 5 rfl rfl (of_fields (c := 0) (v := b.setWidth 32) (c' := 255#8) (v' := 0xFFFFFF00#32) rfl (by decide)
    (by rw [byte_below]; decide))

theorem finish : Statement .finish :=
  of_row 6 rfl rfl (of_fields (c := 0) (v := 0#32) (c' := 255#8) (v' := 4294967295#32) rfl (by decide) (by decide))

theorem readcfg (b : Byte) : Statement (.readcfg b) :=
  of_row 7 rfl rfl (of_fields (c := 0) (v := b.setWidth 32) (c' := 255#8) (v' := 0xFFFFFF00#32) rfl (by decide)
    (by rw [byte_below]; decide))

theorem readlut (b : Byte) : Statement (.readlut b) :=
  of_row 8 rfl rfl (of_fields (c := 0) (v := b.setWidth 32) (c' := 255#8) (v' := 0xFFFFFF00#32) rfl (by decide)
    (by rw [byte_below]; decide))

theorem reflect (bm : Bool) (v : Word) : Statement (.reflect bm v) :=
  of_row 9 rfl rfl (of_fields (c := ctlBit bm 0) (v := v) (c' := 254#8) (v' := 0#32) rfl (by decide)
    (by rw [BitVec.and_zero]; cases bm <;> decide))

end Sys2Proof.Laws.EncodeInRow
end

