-- ==== Sys2Proof/Laws/Ranges.lean ====
section
/-! SUPPORT. What each operation of the divider and each update of ACC stays below (spec/42_divider_lut.md R142,
spec/43_calculate.md R166 to R168), and the table a commit leaves. -/

namespace Sys2Proof.Machine

theorem divRound_lt (w : Width) (poly c : Word) : (divRound w poly c).toNat < 2 ^ w.bits := by
  unfold divRound; split <;> exact trunc_lt _ _

theorem div8_lt (w : Width) (poly c : Word) : (div8 w poly c).toNat < 2 ^ w.bits := by
  simp only [div8, rounds]; exact divRound_lt _ _ _

theorem buildEntry_lt (w : Width) (poly : Word) (i : Byte) : (buildEntry w poly i).toNat < 2 ^ w.bits := div8_lt _ _ _

theorem directUpdate_lt (w : Width) (poly acc : Word) (temp : Byte) :
    (directUpdate w poly acc temp).toNat < 2 ^ w.bits := div8_lt _ _ _

theorem lutUpdate_lt (w : Width) (acc entry : Word) : (lutUpdate w acc entry).toNat < 2 ^ w.bits := trunc_lt _ _

theorem updatedAcc_lt {s : State} {a v : Word} {temp : Byte} (h : updatedAcc s a temp = some v) :
    v.toNat < 2 ^ s.width.bits := by
  unfold updatedAcc at h
  split_ifs at h
  · obtain ⟨e, _, rfl⟩ := Option.map_eq_some_iff.mp h
    exact lutUpdate_lt _ _ _
  · cases h
    exact directUpdate_lt _ _ _ _

/-- The entries after a commit (R105). -/
theorem lutAt_commit (ri ro ul : Bool) (s : State) (i : Byte) :
    lutAt (commit ri ro ul s).lut i =
      if ul then some (buildEntry s.width (trunc s.width s.polyS) i) else none := by
  cases ul <;> simp [commit]

/-- An entry, with the byte's placement in the register written out (R35, R145). -/
theorem buildEntry_eq (w : Width) (poly : Word) (i : Byte) :
    buildEntry w poly i = div8 w poly (zextByte i <<< (w.bits - 8)) := by
  rw [buildEntry, trunc_of_lt (topByte_lt w i), topByte]

theorem errorCode_byte_pos (c : ErrorCode) : 1 ≤ c.byte.toNat := by cases c <;> decide

theorem errorCode_byte_le (c : ErrorCode) : c.byte.toNat ≤ 7 := by cases c <;> decide

end Sys2Proof.Machine
end

