-- ==== Sys2Proof/Laws/Runs.lean ====
section
/-! SUPPORT. Runs of the machine behind the host's interface, and of lists of commands. -/

namespace Sys2Proof.Machine

theorem run_succ (M : Host.Core) (k : Nat) (s : M.State) :
    M.run (k + 1) s =
      match M.step s with
      | .next t => M.run k t
      | .fault r => .fault r
      | .refused r => .refused r := rfl

/-- A run of the engine takes its first step and goes on. -/
theorem core_run_succ (k : Nat) (s : State) :
    Sys2Proof.core.run (k + 1) s =
      match step s with
      | .next t => Sys2Proof.core.run k t
      | .fault r => .fault r
      | .refused r => .refused r := by
  have hs : Sys2Proof.core.step s = step s := rfl
  rw [run_succ Sys2Proof.core k s]
  cases hx : step s with
  | next t => rw [hs.trans hx]
  | fault r => rw [hs.trans hx]
  | refused r => rw [hs.trans hx]

end Sys2Proof.Machine
end

