-- ==== Sys2Proof/Laws/Steps.lean ====
section
/-! SUPPORT. What a command, a word and a mode can be, said once: callers split the cases here instead of unfolding a
meaning. -/

namespace Sys2Proof.Machine

theorem bool_cases (b : Bool) : b = true ∨ b = false := by cases b <;> simp

/-! ### Modes -/

theorem mode_unconfigured_iff {s : State} :
    s.mode = .unconfigured ↔ s.faulted = false ∧ s.active = false ∧ s.configured = false := by
  unfold State.mode; cases s.faulted <;> cases s.active <;> cases s.configured <;> simp

theorem mode_ready_iff {s : State} :
    s.mode = .ready ↔ s.faulted = false ∧ s.active = false ∧ s.configured = true := by
  unfold State.mode; cases s.faulted <;> cases s.active <;> cases s.configured <;> simp

theorem mode_active_iff {s : State} : s.mode = .active ↔ s.faulted = false ∧ s.active = true := by
  unfold State.mode; cases s.faulted <;> cases s.active <;> cases s.configured <;> simp

theorem mode_faulted_iff {s : State} : s.mode = .faulted ↔ s.faulted = true := by
  unfold State.mode; cases s.faulted <;> cases s.active <;> cases s.configured <;> simp

/-! ### Commands in a session -/

theorem exec_data_of_active {b : Byte} {s : State} (hf : s.faulted = false) (hc : s.configured = true)
    (ha : s.active = true) : exec (.data b) s = feedByte b s := by
  rw [exec_data, if_neg (by simp [hf]), if_neg (by simp [hc]), if_neg (by simp [ha])]

theorem exec_finish_of_active {s : State} (hf : s.faulted = false) (hc : s.configured = true)
    (ha : s.active = true) : exec .finish s = closeSession s := by
  rw [exec_finish, if_neg (by simp [hf]), if_neg (by simp [hc]), if_neg (by simp [ha])]

/-! ### Every command -/

/-- Everything a command can do when it answers a next state: it is discarded; it enters an error; it emits a word; or it has
the effect of its rule. -/
theorem exec_next_cases {i : Instr} {s t : State} (h : exec i s = .next t) :
    (s.faulted = true ∧ t = s) ∨
    (s.faulted = false ∧ ∃ code, t = errorEntry code (encode i) s) ∨
    (∃ v, t = emit v s ∧
      ((∃ k, i = .readcfg k) ∨ (s.faulted = false ∧ ((∃ k, i = .readlut k) ∨ ∃ bm w, i = .reflect bm w)))) ∨
    (s.faulted = false ∧
      ((∃ v, i = .setpoly v ∧ t = { s with polyS := v }) ∨
      (∃ v, i = .setinit v ∧ t = { s with initS := v }) ∨
      (∃ v, i = .setxor v ∧ t = { s with xorS := v }) ∨
      (∃ ri ro ul, i = .configure ri ro ul ∧ s.active = false ∧ t = commit ri ro ul s) ∨
      (i = .start ∧ s.configured = true ∧ s.active = false ∧ t = openSession s) ∨
      (∃ b, i = .data b ∧ s.configured = true ∧ s.active = true ∧
        ∃ a v, s.acc = some a ∧ updatedAcc s a (inputByte s.refin b) = some v ∧ t = { s with acc := some v }) ∨
      (i = .finish ∧ s.configured = true ∧ s.active = true ∧
        ∃ a, s.acc = some a ∧
          t = { s with acc := none, active := false, waiting := s.waiting + 1,
                       resp := s.resp ++ [trunc s.width (outputValue s.width s.refout a ^^^ s.xorout)] }))) := by
  rcases bool_cases s.faulted with hf | hf
  · cases i with
    | readcfg k =>
      rw [exec_readcfg] at h
      cases hc : cfgWord s k with
      | none => rw [hc] at h; simp only [hf, if_true] at h; cases h; exact Or.inl ⟨hf, rfl⟩
      | some v => rw [hc] at h; cases h; exact Or.inr (Or.inr (Or.inl ⟨v, rfl, Or.inl ⟨k, rfl⟩⟩))
    | setpoly v => rw [exec_setpoly, if_pos hf] at h; cases h; exact Or.inl ⟨hf, rfl⟩
    | setinit v => rw [exec_setinit, if_pos hf] at h; cases h; exact Or.inl ⟨hf, rfl⟩
    | setxor v => rw [exec_setxor, if_pos hf] at h; cases h; exact Or.inl ⟨hf, rfl⟩
    | configure a b c => rw [exec_configure, if_pos hf] at h; cases h; exact Or.inl ⟨hf, rfl⟩
    | start => rw [exec_start, if_pos hf] at h; cases h; exact Or.inl ⟨hf, rfl⟩
    | data v => rw [exec_data, if_pos hf] at h; cases h; exact Or.inl ⟨hf, rfl⟩
    | finish => rw [exec_finish, if_pos hf] at h; cases h; exact Or.inl ⟨hf, rfl⟩
    | readlut v => rw [exec_readlut, if_pos hf] at h; cases h; exact Or.inl ⟨hf, rfl⟩
    | reflect a v => rw [exec_reflect, if_pos hf] at h; cases h; exact Or.inl ⟨hf, rfl⟩
  · have hf' : ¬ s.faulted = true := by simp [hf]
    right
    cases i with
    | readcfg k =>
      rw [exec_readcfg] at h
      cases hc : cfgWord s k with
      | none => rw [hc] at h; simp only [hf'] at h; cases h; exact Or.inl ⟨hf, _, rfl⟩
      | some v => rw [hc] at h; cases h; exact Or.inr (Or.inl ⟨v, rfl, Or.inl ⟨k, rfl⟩⟩)
    | setpoly v =>
      rw [exec_setpoly, if_neg hf'] at h; cases h
      exact Or.inr (Or.inr ⟨hf, Or.inl ⟨v, rfl, rfl⟩⟩)
    | setinit v =>
      rw [exec_setinit, if_neg hf'] at h; cases h
      exact Or.inr (Or.inr ⟨hf, Or.inr (Or.inl ⟨v, rfl, rfl⟩)⟩)
    | setxor v =>
      rw [exec_setxor, if_neg hf'] at h; cases h
      exact Or.inr (Or.inr ⟨hf, Or.inr (Or.inr (Or.inl ⟨v, rfl, rfl⟩))⟩)
    | configure a b c =>
      rw [exec_configure, if_neg hf'] at h
      rcases bool_cases s.active with ha | ha
      · rw [if_pos ha] at h; cases h; exact Or.inl ⟨hf, _, rfl⟩
      · rw [if_neg (by simp [ha])] at h; cases h
        exact Or.inr (Or.inr ⟨hf, Or.inr (Or.inr (Or.inr (Or.inl ⟨a, b, c, rfl, ha, rfl⟩)))⟩)
    | start =>
      rw [exec_start, if_neg hf'] at h
      rcases bool_cases s.configured with hc | hc
      · rw [if_neg (by simp [hc])] at h
        rcases bool_cases s.active with ha | ha
        · rw [if_pos ha] at h; cases h; exact Or.inl ⟨hf, _, rfl⟩
        · rw [if_neg (by simp [ha])] at h; cases h
          exact Or.inr (Or.inr ⟨hf, Or.inr (Or.inr (Or.inr (Or.inr (Or.inl ⟨rfl, hc, ha, rfl⟩))))⟩)
      · rw [if_pos (by simp [hc])] at h; cases h; exact Or.inl ⟨hf, _, rfl⟩
    | data v =>
      rw [exec_data, if_neg hf'] at h
      rcases bool_cases s.configured with hc | hc
      · rw [if_neg (by simp [hc])] at h
        rcases bool_cases s.active with ha | ha
        · rw [if_neg (by simp [ha]), feedByte_next_iff] at h
          exact Or.inr (Or.inr ⟨hf, Or.inr (Or.inr (Or.inr (Or.inr (Or.inr (Or.inl ⟨v, rfl, hc, ha, h⟩)))))⟩)
        · rw [if_pos (by simp [ha])] at h; cases h; exact Or.inl ⟨hf, _, rfl⟩
      · rw [if_pos (by simp [hc])] at h; cases h; exact Or.inl ⟨hf, _, rfl⟩
    | finish =>
      rw [exec_finish, if_neg hf'] at h
      rcases bool_cases s.configured with hc | hc
      · rw [if_neg (by simp [hc])] at h
        rcases bool_cases s.active with ha | ha
        · rw [if_neg (by simp [ha]), closeSession_next_iff] at h
          exact Or.inr (Or.inr ⟨hf, Or.inr (Or.inr (Or.inr (Or.inr (Or.inr (Or.inr ⟨rfl, hc, ha, h⟩)))))⟩)
        · rw [if_pos (by simp [ha])] at h; cases h; exact Or.inl ⟨hf, _, rfl⟩
      · rw [if_pos (by simp [hc])] at h; cases h; exact Or.inl ⟨hf, _, rfl⟩
    | readlut v =>
      rw [exec_readlut, if_neg hf'] at h
      rcases bool_cases s.configured with hc | hc
      · rw [if_neg (by simp [hc])] at h
        rcases bool_cases s.lutValid with ha | ha
        · rw [if_neg (by simp [ha])] at h
          cases hl : lutAt s.lut v with
          | none => rw [hl] at h; cases h
          | some e => rw [hl] at h; cases h; exact Or.inr (Or.inl ⟨e, rfl, Or.inr ⟨hf, Or.inl ⟨v, rfl⟩⟩⟩)
        · rw [if_pos (by simp [ha])] at h; cases h; exact Or.inl ⟨hf, _, rfl⟩
      · rw [if_pos (by simp [hc])] at h; cases h; exact Or.inl ⟨hf, _, rfl⟩
    | reflect a v =>
      rw [exec_reflect, if_neg hf'] at h; cases h
      exact Or.inr (Or.inl ⟨_, rfl, Or.inr ⟨hf, Or.inr ⟨a, v, rfl⟩⟩⟩)

/-- Everything a word can do when it answers a next state: what the command it decodes to does; or, where it is no command, it
is discarded or enters an error. -/
theorem acceptWord_next_cases {cw : CmdWord} {s t : State} (h : acceptWord cw s = .next t) :
    (∃ i, decode cw = .ok i ∧ exec i s = .next t) ∨
    (s.faulted = true ∧ t = s) ∨
    (s.faulted = false ∧ ∃ code, t = errorEntry code cw s) := by
  cases hd : decode cw with
  | ok i => exact Or.inl ⟨i, rfl, by rwa [acceptWord_of_decode hd] at h⟩
  | error e =>
    rw [acceptWord_of_error hd] at h
    rcases bool_cases s.faulted with hf | hf
    · rw [raiseError_of_faulted hf] at h; cases h; exact Or.inr (Or.inl ⟨hf, rfl⟩)
    · rw [raiseError_of_live hf] at h; cases h; exact Or.inr (Or.inr ⟨hf, _, rfl⟩)

/-! ### Waiting responses -/

/-- A command leaves the count of waiting words or adds one to it. -/
theorem exec_waiting {i : Instr} {s t : State} (h : exec i s = .next t) :
    t.waiting = s.waiting ∨ t.waiting = s.waiting + 1 := by
  rcases exec_next_cases h with ⟨_, rfl⟩ | ⟨_, c, rfl⟩ | ⟨v, rfl, _⟩ | ⟨_, h⟩
  · exact Or.inl rfl
  · exact Or.inl rfl
  · exact Or.inr rfl
  · rcases h with ⟨_, _, rfl⟩ | ⟨_, _, rfl⟩ | ⟨_, _, rfl⟩ | ⟨_, _, _, _, _, rfl⟩ | ⟨_, _, _, rfl⟩ |
      ⟨_, _, _, _, _, _, _, _, rfl⟩ | ⟨_, _, _, _, _, rfl⟩
    · exact Or.inl rfl
    · exact Or.inl rfl
    · exact Or.inl rfl
    · exact Or.inl rfl
    · exact Or.inl rfl
    · exact Or.inl rfl
    · exact Or.inr rfl

/-- So does a word. -/
theorem acceptWord_waiting {cw : CmdWord} {s t : State} (h : acceptWord cw s = .next t) :
    t.waiting = s.waiting ∨ t.waiting = s.waiting + 1 := by
  rcases acceptWord_next_cases h with ⟨i, _, he⟩ | ⟨_, rfl⟩ | ⟨_, c, rfl⟩
  · exact exec_waiting he
  · exact Or.inl rfl
  · exact Or.inl rfl

/-- A step on an offered word, while the block is ready for it. -/
theorem step_of_ready {cw : CmdWord} {rest : List HostInput} {s : State} (hi : s.inputs = .command cw :: rest)
    (h : s.AcceptsCommand) : step s = acceptWord cw { s with inputs := rest } := by
  rw [step_eq, hi]
  exact if_pos h

/-- A step on an offered word, while a response waits. -/
theorem step_of_not_ready {cw : CmdWord} {rest : List HostInput} {s : State} (hi : s.inputs = .command cw :: rest)
    (h : ¬ s.AcceptsCommand) : step s = .next (takeResponse s) := by
  rw [step_eq, hi]
  exact if_neg h

end Sys2Proof.Machine
end

