-- ==== Sys2Proof/Tests/Slice0.lean ====
section
/-! SUPPORT. Tests of the model against values written in spec/ (each test names where), the smoke tests of the
well-formedness checks, and for each obligation with hypotheses a witness that meets them. -/

namespace Sys2Proof.Tests

open Sys2Proof Sys2Proof.Machine

/-! ### Small states -/

/-- A field of the next state, where there is one. -/
def pick {α : Type} (f : State → α) : Result → Option α
  | .next t => some (f t)
  | .fault _ => none
  | .refused _ => none

/-- The last word emitted. -/
def lastWord : Result → Option Word := fun r => (pick (fun t => t.resp.getLast?) r).join

/-- The staged values. -/
def staged (w : Width) (p i x : Word) : State := { State.resetAt w with polyS := p, initS := i, xorS := x }

/-- A READY instance. -/
def readyAt (w : Width) (p i x : Word) (ri ro ul : Bool) : State := commit ri ro ul (staged w p i x)

/-- The same with a session open and ACC as given. -/
def activeAt (w : Width) (p i x : Word) (ri ro ul : Bool) (a : Word) : State :=
  { readyAt w p i x ri ro ul with acc := some a, active := true }

/-- A FAULTED instance: START in UNCONFIGURED mode (spec/60_exceptions.md R214). -/
def faultedAt (w : Width) : State := (State.resetAt w).withError 0x03 0x1000000000000000

/-- READY instances meet the invariant. -/
theorem readyAt_inv (w : Width) (p i x : Word) (ri ro ul : Bool) : (readyAt w p i x ri ro ul).Inv where
  poly_lt := trunc_lt _ _
  init_lt := trunc_lt _ _
  xorout_lt := trunc_lt _ _
  lut_lt := by
    intro k v h
    rw [readyAt, lutAt_commit] at h
    cases ul <;> simp at h
    rw [← h]
    exact buildEntry_lt _ _ _
  acc_lt := by simp [readyAt, staged, State.resetAt]
  valid_iff := by
    simp only [readyAt, lutAt_commit]
    cases ul <;> simp
  valid_entry := by
    intro h k
    have hu : ul = true := h
    rw [readyAt, lutAt_commit, hu, if_pos rfl, buildEntry_eq]
    rfl
  valid_use := by cases ul <;> simp [readyAt, staged]
  active_acc := by simp [readyAt, staged, State.resetAt]
  idle_acc := by simp [readyAt, staged, State.resetAt]
  clean_record := by simp [readyAt, staged, State.resetAt]
  faulted_record := by simp [readyAt, staged, State.resetAt]
  use_valid := by cases ul <;> simp [readyAt, staged]
  dropped := by
    intro h k
    have hu : ul = false := h
    rw [readyAt, lutAt_commit, hu]
    rfl
  code_le := by simp [readyAt, staged, State.resetAt]
  waiting_le := by simp [readyAt, staged, State.resetAt]
  waiting_one := by simp [readyAt, staged, State.resetAt]

/-- So do ACTIVE instances, for every W-bit register value. -/
theorem activeAt_inv (w : Width) (p i x : Word) (ri ro ul : Bool) (a : Word) (ha : a.toNat < 2 ^ w.bits) :
    (activeAt w p i x ri ro ul a).Inv :=
  have h := readyAt_inv w p i x ri ro ul
  { toSpecInv :=
      { h.toSpecInv with
        acc_lt := by intro v hv; cases hv; exact ha
        active_acc := fun _ => ⟨rfl, by simp [activeAt]⟩
        idle_acc := by simp [activeAt] }
    use_valid := h.use_valid
    dropped := h.dropped
    code_le := h.code_le
    waiting_le := h.waiting_le
    waiting_one := h.waiting_one }

/-! ### Well-formedness: each check refuses an ill-formed line (spec/30_encoding.md R79) -/

theorem test_imm32_range : (AsmLine.setpoly 0x100000000).wf = false ∧ (AsmLine.setpoly 0xFFFFFFFF).wf = true := by decide
theorem test_setinit_range : (AsmLine.setinit 0x100000000).wf = false := by decide
theorem test_setxor_range : (AsmLine.setxor 0x100000000).wf = false := by decide
theorem test_reflect_range : (AsmLine.reflect 0x100000000).wf = false ∧ (AsmLine.reflectB 0x100000000).wf = false := by decide
theorem test_imm8_range : (AsmLine.data 0x100).wf = false ∧ (AsmLine.data 0xFF).wf = true := by decide
theorem test_readcfg_range : (AsmLine.readcfg 0x100).wf = false := by decide
theorem test_readlut_range : (AsmLine.readlut 0x100).wf = false := by decide
theorem test_imm64_range : (AsmLine.word64 0x10000000000000000).wf = false := by decide
theorem test_flag_twice : (AsmLine.configure [.lut, .refin, .lut]).wf = false := by decide
theorem test_config_ranges : (AsmLine.config 0x100000000 0 0 []).wf = false ∧ (AsmLine.config 0 0x100000000 0 []).wf = false ∧
    (AsmLine.config 0 0 0x100000000 []).wf = false ∧ (AsmLine.config 0 0 0 [.lut, .lut]).wf = false := by decide
theorem test_calc_range : (AsmLine.calc [0x31, 0x100]).wf = false ∧ (AsmLine.calc []).wf = true := by decide

/-! ### Decoding: words written out bit by bit, `OPC RSV CTL OPND` (spec/30_encoding.md R71 to R74) -/

theorem test_decode_setpoly :
    decode (0b00000001#8 ++ 0b0000000000000000#16 ++ 0b00000000#8 ++ 0b00000100110000010001110110110111#32) =
      .ok (.setpoly 0x04C11DB7) := by decide
theorem test_decode_setinit :
    decode (0b00000010#8 ++ 0b0000000000000000#16 ++ 0b00000000#8 ++ 0b00000000000000000000000111111111#32) =
      .ok (.setinit 0x1FF) := by decide
theorem test_decode_setxor :
    decode (0b00000011#8 ++ 0b0000000000000000#16 ++ 0b00000000#8 ++ 0b10000000000000000000000000111100#32) =
      .ok (.setxor 0x8000003C) := by decide
theorem test_decode_configure_refin :
    decode (0b00000100#8 ++ 0b0000000000000000#16 ++ 0b00000001#8 ++ 0b00000000000000000000000000000000#32) =
      .ok (.configure true false false) := by decide
theorem test_decode_configure_refout :
    decode (0b00000100#8 ++ 0b0000000000000000#16 ++ 0b00000010#8 ++ 0b00000000000000000000000000000000#32) =
      .ok (.configure false true false) := by decide
theorem test_decode_configure_lut :
    decode (0b00000100#8 ++ 0b0000000000000000#16 ++ 0b00000100#8 ++ 0b00000000000000000000000000000000#32) =
      .ok (.configure false false true) := by decide
theorem test_decode_start :
    decode (0b00010000#8 ++ 0b0000000000000000#16 ++ 0b00000000#8 ++ 0b00000000000000000000000000000000#32) =
      .ok .start := by decide
theorem test_decode_data :
    decode (0b00010001#8 ++ 0b0000000000000000#16 ++ 0b00000000#8 ++ 0b00000000000000000000000010110001#32) =
      .ok (.data 0xB1) := by decide
theorem test_decode_finish :
    decode (0b00010010#8 ++ 0b0000000000000000#16 ++ 0b00000000#8 ++ 0b00000000000000000000000000000000#32) =
      .ok .finish := by decide
theorem test_decode_readcfg :
    decode (0b00100000#8 ++ 0b0000000000000000#16 ++ 0b00000000#8 ++ 0b00000000000000000000000000001010#32) =
      .ok (.readcfg 10) := by decide
theorem test_decode_readlut :
    decode (0b00100001#8 ++ 0b0000000000000000#16 ++ 0b00000000#8 ++ 0b00000000000000000000000010000000#32) =
      .ok (.readlut 0x80) := by decide
theorem test_decode_reflect :
    decode (0b00100010#8 ++ 0b0000000000000000#16 ++ 0b00000000#8 ++ 0b10000000000000000000000000000001#32) =
      .ok (.reflect false 0x80000001) := by decide
theorem test_decode_reflect_b :
    decode (0b00100010#8 ++ 0b0000000000000000#16 ++ 0b00000001#8 ++ 0b00000000000000000000000000110001#32) =
      .ok (.reflect true 0x31) := by decide
/-- One reserved bit of each kind: RSV, CTL, OPND (vectors CN9, CN10, CN11, CN12, RF19, RL6 of spec/95_test_vectors.md). -/
theorem test_decode_reserved :
    decode 0x0400000800000000 = .error .reservedNonzero ∧ decode 0x0400000000000001 = .error .reservedNonzero ∧
    decode 0x0100000100000000 = .error .reservedNonzero ∧ decode 0x0100010000000000 = .error .reservedNonzero ∧
    decode 0x2200000200000000 = .error .reservedNonzero ∧ decode 0x2100000000000100 = .error .reservedNonzero := by decide
/-- The edges of the reserved opcodes (R76). -/
theorem test_decode_illegal :
    decode 0x0000000000000000 = .error .illegalOpcode ∧ decode 0x0500000000000000 = .error .illegalOpcode ∧
    decode 0x0F00000000000000 = .error .illegalOpcode ∧ decode 0x1300000000000000 = .error .illegalOpcode ∧
    decode 0x1F00000000000000 = .error .illegalOpcode ∧ decode 0x2300000000000000 = .error .illegalOpcode ∧
    decode 0xFFFFFFFFFFFFFFFF = .error .illegalOpcode := by decide
/-- The opcode table's numbering: one 64-bit unit (spec/opcode_table.json). -/
theorem test_decode_table_word :
    decodeTableWord 64 0x2200000100000031 = some (.reflect true 0x31) ∧ decodeTableWord 64 0 = none := by decide

/-! ### The opcode table's columns (R74) -/

theorem test_table_masks : (opcodeTable.map fun r => r.mask) = opcodeTable.map fun r => r.format.mask := by decide
theorem test_table_unambiguous :
    opcodeTable.Pairwise fun r r' => r.pattern &&& (r.mask &&& r'.mask) ≠ r'.pattern &&& (r.mask &&& r'.mask) := by decide

/-! ### One step of each command -/

/-- CN1: a value of more than W bits is kept raw. -/
theorem test_setpoly_raw : pick (·.polyS) (exec (.setpoly 0x1D5) (State.resetAt .w8)) = some 0x1D5 := by decide
theorem test_setinit_raw : pick (·.initS) (exec (.setinit 0x1FF) (State.resetAt .w8)) = some 0x1FF := by decide
theorem test_setxor_raw : pick (·.xorS) (exec (.setxor 0x3C) (State.resetAt .w8)) = some 0x3C := by decide
/-- CN1, CN2: the committed values are masked. -/
theorem test_configure_masks :
    pick (fun t => (t.poly, t.init, t.xorout, t.polyS)) (exec (.configure true true false) (staged .w16 0x18005 0x1FFFF 0x12345)) =
      some (0x8005, 0xFFFF, 0x2345, 0x18005) := by decide +kernel
/-- R110: LUT[1] and LUT[128] after CONFIGURE with the CRC-32 polynomial. -/
theorem test_configure_builds :
    pick (fun t => (lutAt t.lut 1, lutAt t.lut 128, t.lutValid))
      (exec (.configure true true true) (staged .w32 0x04C11DB7 0xFFFFFFFF 0xFFFFFFFF)) =
      some (some 0x04C11DB7, some 0x690CE0EE, true) := by decide +kernel
/-- CA1 and R162: ACC takes INIT. -/
theorem test_start_loads_init :
    pick (fun t => (t.acc, t.active)) (exec .start (readyAt .w16 0x1021 0x1234 0 false true false)) =
      some (some 0x1234, true) := by decide +kernel
/-- R216: START inside a session. -/
theorem test_start_nested :
    pick (fun t => (t.errCode, t.errCmd, t.acc)) (exec .start (activeAt .w8 7 0 0 false false false 0x72)) =
      some (0x05, 0x1000000000000000, some 0x72) := by decide +kernel
/-- S4's first byte on the direct path (DV3). -/
theorem test_data_direct :
    pick (·.acc) (exec (.data 0x31) (activeAt .w32 0x04C11DB7 0xFFFFFFFF 0xFFFFFFFF true true false 0xFFFFFFFF)) =
      some (some 0x1208C43E) := by decide +kernel
/-- S2's second byte on the LUT path: 2672, then 20B5. -/
theorem test_data_lut :
    pick (·.acc) (exec (.data 0x32) (activeAt .w16 0x1021 0 0 false false true 0x2672)) = some (some 0x20B5) := by
  decide +kernel
/-- S4's last step: ACC 9B63D02C gives CBF43926. -/
theorem test_finish_reflects_then_xors :
    lastWord (exec .finish (activeAt .w32 0x04C11DB7 0xFFFFFFFF 0xFFFFFFFF true true false 0x9B63D02C)) =
      some 0xCBF43926 := by decide +kernel
/-- CA6: reflect, then XOR; and the session is closed. -/
theorem test_finish_empty :
    lastWord (exec .finish (activeAt .w16 0x1021 0x1234 0xFFFF false true false 0x1234)) = some 0xD3B7 ∧
    pick (fun t => (t.acc, t.active)) (exec .finish (activeAt .w16 0x1021 0x1234 0xFFFF false true false 0x1234)) =
      some (none, false) := by decide +kernel
/-- R195: READCFG 0 of a W = 16 instance, and STATUS after an error. -/
theorem test_readcfg_width : lastWord (exec (.readcfg 0) (State.resetAt .w16)) = some 0x00000010 := by decide
theorem test_readcfg_status :
    lastWord (exec (.readcfg 5) ((readyAt .w8 7 0 0 false false false).withError 0x04 0x1100000000000031)) =
      some 0x00000409 := by decide +kernel
/-- RL2. -/
theorem test_readlut_entry : lastWord (exec (.readlut 0x31) (readyAt .w8 7 0 0 false false true)) = some 0x97 := by
  decide +kernel
/-- RL4: no table. -/
theorem test_readlut_no_table :
    pick (statusWord ·) (exec (.readlut 0) (readyAt .w16 0x1021 0 0 false false false)) = some 0x709 := by decide +kernel
/-- RF8, RF9. -/
theorem test_reflect_w16 :
    lastWord (exec (.reflect false 0x1234) (State.resetAt .w16)) = some 0x2C48 ∧
    lastWord (exec (.reflect false 0xFFFF0001) (State.resetAt .w16)) = some 0x8000 := by decide +kernel
/-- RF16, RF17. -/
theorem test_reflect_b :
    lastWord (exec (.reflect true 0x31) (State.resetAt .w32)) = some 0x8C ∧
    lastWord (exec (.reflect true 0x1FF) (State.resetAt .w32)) = some 0xFF := by decide +kernel

/-! ### The divider, the table and whole messages (spec/95_test_vectors.md §1.1, §2.3, §2.4) -/

/-- DV1 and DV2, round by round. -/
theorem test_rounds_crc8 :
    (List.range 9).map (fun k => rounds .w8 0x07 k 0x31) = [0x31, 0x62, 0xC4, 0x8F, 0x19, 0x32, 0x64, 0xC8, 0x97] := by
  decide +kernel
theorem test_rounds_xmodem :
    (List.range 9).map (fun k => rounds .w16 0x1021 k 0x3100) =
      [0x3100, 0x6200, 0xC400, 0x9821, 0x2063, 0x40C6, 0x818C, 0x1339, 0x2672] := by decide +kernel
/-- Entries of the CRC-32C table. -/
theorem test_entries_crc32c :
    ([0x00, 0x01, 0x7F, 0x80, 0xFF] : List Byte).map (buildEntry .w32 0x1EDC6F41) =
      [0x00000000, 0x1EDC6F41, 0x4A0B68FA, 0xC0C1D64F, 0x8ACABEB5] := by decide +kernel
/-- The nine bytes of the check message. -/
def checkMessage : List Byte := [0x31, 0x32, 0x33, 0x34, 0x35, 0x36, 0x37, 0x38, 0x39]
/-- S1 to S4. -/
theorem test_check_values :
    checksum .w8 0x07 0 false false 0 checkMessage = 0xF4 ∧
    checksum .w16 0x1021 0 false false 0 checkMessage = 0x31C3 ∧
    checksum .w16 0x8005 0xFFFF true true 0 checkMessage = 0x4B37 ∧
    checksum .w32 0x04C11DB7 0xFFFFFFFF true true 0xFFFFFFFF checkMessage = 0xCBF43926 := by decide +kernel

/-! ### A word, a step, reset (spec/60_exceptions.md, spec/70_reset_and_hazards.md) -/

/-- CN9: STATUS and the error record after a reserved bit. -/
theorem test_accept_reserved :
    pick (fun t => (statusWord t, t.errCmd)) (acceptWord 0x0400000800000000 (State.resetAt .w16)) =
      some (0x208, 0x0400000800000000) := by decide
/-- RL3: NOT_CONFIGURED. -/
theorem test_accept_not_configured :
    pick (statusWord ·) (acceptWord 0x2100000000000001 (State.resetAt .w16)) = some 0x308 := by decide
/-- R221: FAULTED mode discards, and keeps the first error. -/
theorem test_accept_faulted :
    acceptWord 0 (faultedAt .w8) = .next (faultedAt .w8) ∧
    acceptWord 0x20000000000000FF (faultedAt .w8) = .next (faultedAt .w8) := by
  constructor <;> rfl
/-- The next step runs the word placed for it, as the first after reset. -/
theorem test_with_fetch_word :
    pick (fun t => (t.polyS, t.inputs)) (step (State.reset.withFetchWord 64 0x0100000004C11DB7)) =
      some (0x04C11DB7, []) := by decide
/-- R247: with a response waiting a word is not accepted, and stays offered; once it is taken the word runs. -/
theorem test_step_not_ready :
    pick (fun t => (t.polyS, t.waiting, t.inputs))
      (step { State.reset with resp := [0x20], waiting := 1, inputs := [.command 0x0100000000000007] }) =
      some (0, 0, [.command 0x0100000000000007]) := by decide
theorem test_step_ready :
    pick (fun t => (t.polyS, t.waiting, t.inputs))
      (step { State.reset with resp := [0x20], waiting := 0, inputs := [.command 0x0100000000000007] }) =
      some (7, 0, []) := by decide
/-- R240: reset clears the engine; a waiting word is lost, a taken one stays. -/
theorem test_step_reset :
    pick (fun t => (t.mode, t.poly, t.resp, t.waiting))
      (step { readyAt .w8 7 0 0 false false true with resp := [0xF4, 0x01], waiting := 1, inputs := [.reset] }) =
      some (.unconfigured, 0, [0xF4], 0) := by decide +kernel

/-! ### The assembler's text (R79 to R81) -/

theorem test_text_config :
    assembleText [" config 0x04C1_1DB7, 4294967295, 0xFFFFFFFF, lut refin refout ; CRC-32".toList, "".toList] =
      some [0x0100000004C11DB7, 0x02000000FFFFFFFF, 0x03000000FFFFFFFF, 0x0400000700000000] := by decide +kernel
theorem test_text_calc :
    assembleText ["CALC \"19\"".toList] =
      some [0x1000000000000000, 0x1100000000000031, 0x1100000000000039, 0x1200000000000000] := by decide +kernel
theorem test_text_bytes :
    assembleText ["calc 'A', 0xFF, 3".toList, "Reflect.B 0x31".toList, ".word64 0x5".toList] =
      some [0x1000000000000000, 0x1100000000000041, 0x11000000000000FF, 0x1100000000000003, 0x1200000000000000,
        0x2200000100000031, 0x5] := by decide +kernel
theorem test_text_refused :
    assembleText ["DATA 256".toList] = none ∧ assembleText ["CONFIGURE lut lut".toList] = none ∧
    assembleText ["SETPOLY".toList] = none ∧ assembleText ["HALT".toList] = none := by decide +kernel

/-! ### Witnesses: for each obligation with hypotheses, concrete values that meet them together; where it has several clauses,
one for each, at the ends of a clause's range -/

/-- The W = 32 instance after reset and the one of R110: the states most witnesses use. -/
def w32 : State := State.resetAt .w32
def crc32 : State := readyAt .w32 0x04C11DB7 0xFFFFFFFF 0xFFFFFFFF true true true
def crc8 : State := readyAt .w8 0x07 0 0 false false false
def crc8Lut : State := readyAt .w8 0x07 0 0 false false true
def crc8Open : State := activeAt .w8 0x07 0 0 false false false 0x97
def crc8LutOpen : State := activeAt .w8 0x07 0 0 false false true 0x97

theorem witness_EncodeOfDecodeIsTheWord : decode 0x2200000100000031 = .ok (.reflect true 0x31) := by decide

theorem witness_MatchAndMaskSelectEachCommand :
    (0x01000000FFFFFFFF#64 &&& 0xFFFFFFFF00000000 = 0x0100000000000000 ∧
      decode 0x01000000FFFFFFFF = .ok (.setpoly 0xFFFFFFFF)) ∧
    (0x02000000FFFFFFFF#64 &&& 0xFFFFFFFF00000000 = 0x0200000000000000 ∧
      decode 0x02000000FFFFFFFF = .ok (.setinit 0xFFFFFFFF)) ∧
    (0x03000000FFFFFFFF#64 &&& 0xFFFFFFFF00000000 = 0x0300000000000000 ∧
      decode 0x03000000FFFFFFFF = .ok (.setxor 0xFFFFFFFF)) ∧
    (0x0400000700000000#64 &&& 0xFFFFFFF8FFFFFFFF = 0x0400000000000000 ∧
      decode 0x0400000700000000 = .ok (.configure true true true)) ∧
    (0x1000000000000000#64 &&& 0xFFFFFFFFFFFFFFFF = 0x1000000000000000 ∧ decode 0x1000000000000000 = .ok .start) ∧
    (0x11000000000000FF#64 &&& 0xFFFFFFFFFFFFFF00 = 0x1100000000000000 ∧
      decode 0x11000000000000FF = .ok (.data 0xFF)) ∧
    (0x1200000000000000#64 &&& 0xFFFFFFFFFFFFFFFF = 0x1200000000000000 ∧ decode 0x1200000000000000 = .ok .finish) ∧
    (0x20000000000000FF#64 &&& 0xFFFFFFFFFFFFFF00 = 0x2000000000000000 ∧
      decode 0x20000000000000FF = .ok (.readcfg 0xFF)) ∧
    (0x21000000000000FF#64 &&& 0xFFFFFFFFFFFFFF00 = 0x2100000000000000 ∧
      decode 0x21000000000000FF = .ok (.readlut 0xFF)) ∧
    (0x22000001FFFFFFFF#64 &&& 0xFFFFFFFE00000000 = 0x2200000000000000 ∧
      decode 0x22000001FFFFFFFF = .ok (.reflect true 0xFFFFFFFF)) := by decide

theorem witness_EveryWordIsACommandOrAnError :
    opcField 0x0500000000000000 ∉ definedOpcodes ∧
    (opcField 0x1000000000000001 ∈ definedOpcodes ∧ 0x1000000000000001#64 &&& reservedBits (opcField 0x1000000000000001) ≠ 0) ∧
    (opcField 0x1000000000000000 ∈ definedOpcodes ∧ 0x1000000000000000#64 &&& reservedBits (opcField 0x1000000000000000) = 0) := by
  decide

theorem witness_ReservedOpcodesAreIllegal : decode 0x2300000000000000 = .error .illegalOpcode ∧ w32.faulted = false := by decide

theorem witness_ReservedBitsAreNeverIgnored :
    w32.faulted = false ∧ opcField 0x0100000100000000 ∈ definedOpcodes ∧
      0x0100000100000000#64 &&& reservedBits (opcField 0x0100000100000000) ≠ 0 := by decide

theorem witness_StepRunsTheDecodedCommand :
    w32.AcceptsCommand ∧
    (∃ i, ({ w32 with inputs := [.command 0x1000000000000000] } : State).inputs = .command 0x1000000000000000 :: [] ∧
      decode 0x1000000000000000 = .ok i) ∧
    (decode 0 = .error .illegalOpcode ∧ ({ w32 with inputs := [.command 0] } : State).faulted = false) ∧
    (decode 0x1000000000000001 = .error .reservedNonzero ∧
      ({ w32 with inputs := [.command 0x1000000000000001] } : State).faulted = false) ∧
    (decode 0 = .error .illegalOpcode ∧ (faultedAt .w32).AcceptsCommand ∧
      ({ faultedAt .w32 with inputs := [.command 0] } : State).faulted = true) ∧
    (({ w32 with resp := [0x20], waiting := 1, inputs := [.command 0] } : State).inputs = .command 0 :: [] ∧
      ¬ ({ w32 with resp := [0x20], waiting := 1, inputs := [.command 0] } : State).AcceptsCommand) :=
  ⟨by decide, ⟨_, rfl, rfl⟩, by decide, by decide, by decide, by decide⟩

theorem witness_IdleAndTakingKeepTheEngine :
    w32.inputs = [] ∧ ({ w32 with inputs := [.takeResponse] } : State).inputs = .takeResponse :: [] := by decide

theorem witness_ResetTakesAnyStateToTheResetState : ({ faultedAt .w16 with inputs := [.reset] } : State).inputs = .reset :: [] := by
  decide

theorem witness_ResetForgetsEverythingBefore :
    ∃ s s' t t' : State, s.width = s'.width ∧ s.inputs = .reset :: [] ∧ s'.inputs = .reset :: [] ∧ s ≠ s' ∧
      step s = .next t ∧ step s' = .next t' :=
  ⟨{ faultedAt .w8 with inputs := [.reset] }, { State.resetAt .w8 with polyS := 1, inputs := [.reset] }, _, _, rfl, rfl, rfl,
    by decide, rfl, rfl⟩

/-- A step that emits; one on a word that is not accepted; one that accepts; and two that lose a waiting word. -/
theorem witness_AtMostOneResponseWaits :
    (∃ t, ({ w32 with inputs := [.command 0x2000000000000000] } : State).waiting ≤ 1 ∧
      step { w32 with inputs := [.command 0x2000000000000000] } = .next t ∧ t.waiting = 1) ∧
    (({ w32 with resp := [0x20], waiting := 1, inputs := [.command 0] } : State).inputs = .command 0 :: [] ∧
      ({ w32 with resp := [0x20], waiting := 1, inputs := [.command 0] } : State).waiting ≠ 0) ∧
    (∃ t, ({ w32 with inputs := [.command 0] } : State).inputs = .command 0 :: [] ∧
      step { w32 with inputs := [.command 0] } = .next t ∧ t.inputs ≠ [.command 0]) ∧
    (∃ t, step { w32 with resp := [0x20], waiting := 1, inputs := [.takeResponse] } = .next t ∧ t.waiting < 1) ∧
    ∃ t, step { w32 with resp := [0x20], waiting := 1, inputs := [.reset] } = .next t ∧ t.waiting < 1 :=
  ⟨⟨_, by decide, rfl, rfl⟩, by decide, ⟨_, rfl, rfl, by decide⟩, ⟨_, rfl, by decide⟩, _, rfl, by decide⟩

theorem witness_StagingCommandsWriteRawValues :
    w32.faulted = false ∧
    (opcField 0x01FFFFFF00000000 = 0x01 ∧ (0x01FFFFFF00000000#64).extractLsb' 32 24 ≠ 0) ∧
    (opcField 0x0200000100000000 = 0x02 ∧ (0x0200000100000000#64).extractLsb' 32 24 ≠ 0) ∧
    (opcField 0x0380000000000000 = 0x03 ∧ (0x0380000000000000#64).extractLsb' 32 24 ≠ 0) := by decide

theorem witness_ConfigureCommitsAndBuildsTheTable :
    (crc8Open.faulted = false ∧ crc8Open.active = true) ∧ (w32.faulted = false ∧ w32.active = false) := by decide

theorem witness_ConfigureErrorsInOrder :
    (opcField 0x0480000000000000 = 0x04 ∧ (0x0480000000000000#64).extractLsb' 35 21 ≠ 0) ∧
    (opcField 0x0400000000000001 = 0x04 ∧ (0x0400000000000001#64).extractLsb' 0 32 ≠ 0) ∧
    (crc8Open.faulted = false ∧ opcField 0x0400000700000000 = 0x04 ∧ (0x0400000700000000#64).extractLsb' 35 21 = 0 ∧
      (0x0400000700000000#64).extractLsb' 0 32 = 0 ∧ crc8Open.active = true) := by decide

theorem witness_ConfigureMasksAndNeverRejects :
    ((staged .w8 0x1D5 0 0).faulted = false ∧ (staged .w8 0x1D5 0 0).active = false ∧
      (staged .w8 0x1D5 0 0).width = .w8 ∧ (staged .w8 0x1D5 0 0).polyS = 0x1D5) ∧
    ((staged .w16 0 0xFFFFFFFF 0).faulted = false ∧ (staged .w16 0 0xFFFFFFFF 0).active = false ∧
      (staged .w16 0 0xFFFFFFFF 0).width = .w16 ∧ (staged .w16 0 0xFFFFFFFF 0).initS = 0xFFFFFFFF) ∧
    (w32.faulted = false ∧ w32.active = false ∧ w32.width = .w32) := by decide

theorem witness_ConstructionInAnyStagingOrder :
    (w32.mode = .unconfigured ∨ w32.mode = .ready) ∧ (crc8.mode = .unconfigured ∨ crc8.mode = .ready) ∧
    [Instr.setxor 3, .setpoly 1, .setinit 2].Perm [.setpoly 1, .setinit 2, .setxor 3] := by decide

theorem witness_ConfigurationIsImmutableBetweenConfigures :
    (∃ t, acceptWord 0x0400000000000000 w32 = .next t) ∧ ∃ t, acceptWords [0x0400000000000000, 0x1000000000000000] w32 = .next t :=
  ⟨⟨_, rfl⟩, _, rfl⟩

theorem witness_ReflectReversesTheLowBits : ([8, 16, 32] : List Nat).all (fun n => n = 8 ∨ n = 16 ∨ n = 32) = true := by decide

theorem witness_ReflectIsALinearInvolution :
    (0xFF#32).toNat < 2 ^ 8 ∧ (0x80#32).toNat < 2 ^ 8 ∧ (0xFFFF#32).toNat < 2 ^ 16 ∧ (0x8000#32).toNat < 2 ^ 16 ∧
    (0xFFFFFFFF#32).toNat < 2 ^ 32 ∧ (0x80000000#32).toNat < 2 ^ 32 := by decide +kernel

theorem witness_ReflectEmitsTheReflection :
    w32.faulted = false ∧
    (opcField 0x2200000200000000 = 0x22 ∧ (0x2200000200000000#64).extractLsb' 33 23 ≠ 0) ∧
    (faultedAt .w8).faulted = true := by decide

theorem witness_RoundShiftsAndConditionallyXors :
    ((0x07#32).toNat < 2 ^ Width.w8.bits ∧ (0xC4#32).toNat < 2 ^ Width.w8.bits ∧
      (0xC4#32).getLsbD (Width.w8.bits - 1) = true) ∧
    ((0x07#32).toNat < 2 ^ Width.w8.bits ∧ (0x31#32).toNat < 2 ^ Width.w8.bits ∧
      (0x31#32).getLsbD (Width.w8.bits - 1) = false) := by decide

theorem witness_DividerIsPolynomialDivision :
    (0x1021#32).toNat < 2 ^ Width.w16.bits ∧ (0xFFFF#32).toNat < 2 ^ Width.w16.bits ∧
    (0x8000#32).toNat < 2 ^ Width.w16.bits ∧ (0xFF#32).toNat < 2 ^ (Width.w16.bits - 8) ∧
    (0#32).toNat < 2 ^ (Width.w8.bits - 8) := by decide

theorem witness_TableLaws : (0x07#32).toNat < 2 ^ Width.w8.bits ∧ (0xFFFFFFFF#32).toNat < 2 ^ Width.w32.bits := by decide

theorem witness_ReadlutEmitsTheEntry :
    (crc8Lut.faulted = false ∧ crc8Lut.configured = true ∧ crc8Lut.lutValid = true ∧ lutAt crc8Lut.lut 0xFF = some 0xF3) ∧
    (opcField 0x2100000000000100 = 0x21 ∧ (0x2100000000000100#64).extractLsb' 8 48 ≠ 0) ∧
    (w32.faulted = false ∧ w32.configured = false) ∧
    (crc8.faulted = false ∧ crc8.configured = true ∧ crc8.lutValid = false) ∧
    (faultedAt .w8).faulted = true := by decide +kernel

theorem witness_StartLoadsTheCommittedInit :
    (crc8.faulted = false ∧ crc8.configured = true ∧ crc8.active = false) ∧
    (opcField 0x1000000000000001 = 0x10 ∧ (0x1000000000000001#64).extractLsb' 0 56 ≠ 0) ∧
    (w32.faulted = false ∧ w32.configured = false) ∧
    (crc8Open.faulted = false ∧ crc8Open.configured = true ∧ crc8Open.active = true) := by decide +kernel

theorem witness_DataUpdatesTheRegister :
    (crc8Open.faulted = false ∧ crc8Open.configured = true ∧ crc8Open.active = true ∧ crc8Open.acc = some 0x97 ∧
      (0x97#32).toNat < 2 ^ crc8Open.width.bits ∧
      (0x31#8) = (if crc8Open.refin then rrom[(0x31#8).toNat]'(by decide) else 0x31) ∧ crc8Open.useLut = false) ∧
    (crc8LutOpen.faulted = false ∧ crc8LutOpen.configured = true ∧ crc8LutOpen.active = true ∧
      crc8LutOpen.acc = some 0x97 ∧ (0x97#32).toNat < 2 ^ crc8LutOpen.width.bits ∧
      (0x68#8) = (if crc8LutOpen.refin then rrom[(0x68#8).toNat]'(by decide) else 0x68) ∧ crc8LutOpen.useLut = true ∧
      (0xFF#8).toNat = ((0x97#32 >>> (crc8LutOpen.width.bits - 8)) ^^^ zextByte 0x68).toNat ∧
      lutAt crc8LutOpen.lut 0xFF = some 0xF3) ∧
    (opcField 0x1100000000000100 = 0x11 ∧ (0x1100000000000100#64).extractLsb' 8 48 ≠ 0) ∧
    (w32.faulted = false ∧ w32.configured = false) ∧
    (crc8.faulted = false ∧ crc8.configured = true ∧ crc8.active = false) := by decide +kernel

theorem witness_DataCornerCases :
    (0xFF#32).toNat < 2 ^ 8 ∧ (0xF3#32).toNat < 2 ^ 8 ∧ (0x1234#32).toNat < 2 ^ Width.w16.bits ∧
    (0x07#32).toNat < 2 ^ Width.w8.bits := by decide

theorem witness_NoByteAndNoParameterIsAnError :
    (crc8LutOpen.Inv ∧ crc8LutOpen.mode = .active) ∧ (crc32.Inv ∧ crc32.mode = .ready) ∧
    (w32.mode = .unconfigured ∨ w32.mode = .ready) :=
  ⟨⟨activeAt_inv _ _ _ _ _ _ _ _ (by decide), by decide +kernel⟩, ⟨readyAt_inv _ _ _ _ _ _ _, by decide +kernel⟩, by decide⟩

theorem witness_LutPathEqualsDirectPath :
    ((0x07#32).toNat < 2 ^ Width.w8.bits ∧ (0x97#32).toNat < 2 ^ Width.w8.bits) ∧
    (w32.mode = .unconfigured ∨ w32.mode = .ready) ∧ (crc8.mode = .unconfigured ∨ crc8.mode = .ready) := by decide

theorem witness_FinishEmitsAndClosesTheSession :
    (crc8Open.faulted = false ∧ crc8Open.configured = true ∧ crc8Open.active = true ∧ crc8Open.acc = some 0x97) ∧
    (opcField 0x1280000000000000 = 0x12 ∧ (0x1280000000000000#64).extractLsb' 0 56 ≠ 0) ∧
    (w32.faulted = false ∧ w32.configured = false) ∧
    (crc8.faulted = false ∧ crc8.configured = true ∧ crc8.active = false) := by decide +kernel

theorem witness_EmptyMessageReturnsInit : crc32.mode = .ready := by decide +kernel

theorem witness_SessionEmitsTheChecksum : crc32.Inv ∧ crc32.mode = .ready :=
  ⟨readyAt_inv _ _ _ _ _ _ _, by decide +kernel⟩

/-- Two instances that differ in the path and in what stands between START and FINISH. -/
theorem witness_SessionsAreIndependent :
    ∃ t t', crc8.Inv ∧ crc8Lut.Inv ∧ crc8.mode = .ready ∧ crc8Lut.mode = .ready ∧ crc8.width = crc8Lut.width ∧
      crc8.poly = crc8Lut.poly ∧ crc8.init = crc8Lut.init ∧ crc8.xorout = crc8Lut.xorout ∧ crc8.refin = crc8Lut.refin ∧
      crc8.refout = crc8Lut.refout ∧
      (∀ i ∈ [Instr.data 0x31], insideSession i) ∧ (∀ i ∈ [Instr.readcfg 0, .data 0x31], insideSession i) ∧
      messageBytes [.data 0x31] = messageBytes [.readcfg 0, .data 0x31] ∧
      runCommands (.start :: ([.data 0x31] ++ [.finish])) crc8 = .next t ∧ t.faulted = false ∧
      runCommands (.start :: ([.readcfg 0, .data 0x31] ++ [.finish])) crc8Lut = .next t' ∧ t'.faulted = false :=
  ⟨_, _, readyAt_inv _ _ _ _ _ _ _, readyAt_inv _ _ _ _ _ _ _, by decide +kernel, by decide +kernel, rfl, rfl, rfl, rfl, rfl,
    rfl, by simp [insideSession], by simp [insideSession], rfl, rfl, by decide +kernel, rfl, by decide +kernel⟩

theorem witness_ChecksumsAreBelowTwoToTheW :
    ∃ t v, exec .finish crc8Open = .next t ∧ t.resp = crc8Open.resp ++ [v] := ⟨_, _, rfl, rfl⟩

theorem witness_MessageBitsAreConsumedInOrder :
    (0x07#32).toNat < 2 ^ Width.w8.bits ∧ (0xFF#32).toNat < 2 ^ Width.w8.bits := by decide

theorem witness_ReadcfgReturnsTheSelectedWord :
    (11 ≤ (11#8).toNat ∧ 11 ≤ (255#8).toNat ∧ w32.faulted = false) ∧
    (opcField 0x2000000000000100 = 0x20 ∧ (0x2000000000000100#64).extractLsb' 8 48 ≠ 0) ∧
    (1 ≤ (1#8).toNat ∧ (10#8).toNat ≤ 10) := by decide

theorem witness_StatusWordLayout :
    (statusWord crc8).extractLsb' 0 4 = (statusWord (readyAt .w16 1 1 1 true true false)).extractLsb' 0 4 := by decide +kernel

/-- A word with two causes: the first in the order is BAD_SELECTOR's predecessor, RESERVED_NONZERO; and words with one cause
each, with none, and with NOT_CONFIGURED before NO_TABLE (RL5). -/
theorem witness_FirstCauseInPriorityOrderIsReported :
    (w32.faulted = false ∧ FirstCause .reservedNonzero 0x20000000000001FF w32) ∧
    FirstCause .illegalOpcode 0 w32 ∧ FirstCause .badSelector 0x200000000000000B w32 ∧
    FirstCause .notConfigured 0x2100000000000000 w32 ∧ FirstCause .noSession 0x1100000000000031 crc8 ∧
    FirstCause .sessionActive 0x1000000000000000 crc8Open ∧ FirstCause .noTable 0x2100000000000000 crc8 ∧
    ((∀ c : ErrorCode, ¬ c.holds 0x200000000000000A crc8) ∧ crc8.Inv) := by
  refine ⟨⟨by decide, [.illegalOpcode], _, rfl, ?_, ?_⟩, ⟨[], _, rfl, ?_, ?_⟩,
    ⟨[.illegalOpcode, .reservedNonzero], _, rfl, ?_, ?_⟩,
    ⟨[.illegalOpcode, .reservedNonzero, .badSelector], _, rfl, ?_, ?_⟩,
    ⟨[.illegalOpcode, .reservedNonzero, .badSelector, .notConfigured], _, rfl, ?_, ?_⟩,
    ⟨[.illegalOpcode, .reservedNonzero, .badSelector, .notConfigured, .noSession], _, rfl, ?_, ?_⟩,
    ⟨[.illegalOpcode, .reservedNonzero, .badSelector, .notConfigured, .noSession, .sessionActive], _, rfl, ?_, ?_⟩, ?_, ?_⟩
  case refine_16 => exact readyAt_inv _ _ _ _ _ _ _
  case refine_15 => intro c; cases c <;> simp only [ErrorCode.holds] <;> decide +kernel
  all_goals first
    | (simp only [ErrorCode.holds]; decide +kernel)
    | (simp only [List.mem_cons, List.not_mem_nil, or_false, forall_eq_or_imp, forall_eq, ErrorCode.holds, false_imp_iff,
        implies_true]; decide +kernel)
    | (intro d hd; cases hd)

theorem witness_ModeErrorsOfEachCommand :
    (w32.faulted = false ∧ w32.configured = false) ∧
    (∃ t, ¬ (Instr.readcfg 0xFF = .start ∨ (∃ b, Instr.readcfg 0xFF = .data b) ∨ Instr.readcfg 0xFF = .finish ∨
        ∃ k, Instr.readcfg 0xFF = .readlut k) ∧
      exec (.readcfg 0xFF) w32 = .next t ∧ w32.errCode = 0x00) ∧
    (crc8.faulted = false ∧ crc8.configured = true ∧ crc8.active = false ∧ crc8.lutValid = false) ∧
    (crc8Open.faulted = false ∧ crc8Open.configured = true ∧ crc8Open.active = true) :=
  ⟨by decide, ⟨_, by simp, rfl, rfl⟩, by decide +kernel, by decide +kernel⟩

theorem witness_ErrorEntryKeepsEverythingElse :
    ∃ t, w32.faulted = false ∧ acceptWord 0 w32 = .next t ∧ t.faulted = true := ⟨_, rfl, rfl, rfl⟩

theorem witness_FaultedModeDiscardsAllButReadcfg :
    ((faultedAt .w8).faulted = true ∧ 0x200000000000000A#64 &&& 0xFFFFFFFFFFFFFF00 = 0x2000000000000000 ∧
      ((0x200000000000000A#64).extractLsb' 0 8).toNat ≤ 10) ∧
    (¬ (0x200000000000000B#64 &&& 0xFFFFFFFFFFFFFF00 = 0x2000000000000000 ∧
      ((0x200000000000000B#64).extractLsb' 0 8).toNat ≤ 10)) ∧
    (w32.faulted = false ∧ decode 0x1000000000000000 = .ok .start ∧ decode 0 = .error .illegalOpcode ∧
      decode 0x1000000000000001 = .error .reservedNonzero) := by decide

theorem witness_OnlyResetLeavesFaultedMode :
    (∃ t, ({ faultedAt .w8 with inputs := [.command 0] } : State).faulted = true ∧
      step { faultedAt .w8 with inputs := [.command 0] } = .next t) ∧
    ∃ t, ({ faultedAt .w8 with inputs := [.reset] } : State).faulted = true ∧
      step { faultedAt .w8 with inputs := [.reset] } = .next t := ⟨⟨_, rfl, rfl⟩, _, rfl, rfl⟩

theorem witness_EveryStepKeepsTheSpecInvariants :
    ∃ t, ({ crc8LutOpen with inputs := [.command 0x1100000000000031] } : State).SpecInv ∧
      step { crc8LutOpen with inputs := [.command 0x1100000000000031] } = .next t ∧ t.acc ≠ crc8LutOpen.acc :=
  ⟨_, { (activeAt_inv .w8 0x07 0 0 false false true 0x97 (by decide)).toSpecInv with }, rfl, by decide +kernel⟩

theorem witness_NoStepReadsAnAbsentValue : crc8LutOpen.Inv := activeAt_inv _ _ _ _ _ _ _ _ (by decide)

theorem witness_EachCommandWritesOnlyItsState :
    (∃ t, exec (.data 0x31) crc8Open = .next t) ∧ (∃ t, exec .start (faultedAt .w8) = .next t) ∧
    ∃ t, exec (.data 0x31) w32 = .next t := ⟨⟨_, rfl⟩, ⟨_, rfl⟩, _, rfl⟩

theorem witness_FourCommandsEmitOneWordEach :
    (∃ t, w32.faulted = false ∧ exec (.readcfg 10) w32 = .next t ∧ t.faulted = false) ∧
    (∃ t, w32.faulted = false ∧ exec (.setpoly 1) w32 = .next t ∧ t.faulted = false) ∧
    ∃ t, w32.faulted = false ∧ exec (.readcfg 11) w32 = .next t ∧ t.faulted = true :=
  ⟨⟨_, rfl, rfl, rfl⟩, ⟨_, rfl, rfl, rfl⟩, _, rfl, rfl, rfl⟩

theorem witness_OnlyTheseCommandsChangeTheMode :
    (∃ t, acceptWord 0x1000000000000000 crc8 = .next t ∧ t.mode ≠ crc8.mode) ∧
    (∃ t, acceptWord 0x1200000000000000 crc8Open = .next t ∧ t.mode ≠ crc8Open.mode) ∧
    (∃ t, acceptWord 0x0400000000000000 w32 = .next t ∧ t.mode ≠ w32.mode) ∧
    ∃ t, acceptWord 0 w32 = .next t ∧ t.mode ≠ w32.mode :=
  ⟨⟨_, rfl, by decide +kernel⟩, ⟨_, rfl, by decide +kernel⟩, ⟨_, rfl, by decide +kernel⟩, _, rfl, by decide +kernel⟩

theorem witness_SideEffectsAndIdempotence :
    (∃ t v, exec (.readcfg 0) w32 = .next t ∧ t.resp = w32.resp ++ [v]) ∧ crc8.mode = .ready ∧
    (∃ t, exec .start crc8 = .next t) ∧ (crc8Open.Inv ∧ crc8Open.mode = .active) ∧
    ∃ t, exec .finish crc8Open = .next t :=
  ⟨⟨_, _, rfl, rfl⟩, by decide +kernel, ⟨_, rfl⟩, ⟨activeAt_inv _ _ _ _ _ _ _ _ (by decide), by decide +kernel⟩, _, rfl⟩

theorem witness_CommandsSeeWhatTheOneBeforeWrote :
    (w32.faulted = false ∧ w32.active = false) ∧ (crc32.Inv ∧ crc32.mode = .ready) :=
  ⟨by decide, readyAt_inv _ _ _ _ _ _ _, by decide +kernel⟩

theorem witness_WidthIsOneOfThreeAndNeverChanges :
    ((9 : Nat) ≠ 8 ∧ (9 : Nat) ≠ 16 ∧ (9 : Nat) ≠ 32) ∧ ∃ t, step { w32 with inputs := [.reset] } = .next t :=
  ⟨by decide, _, rfl⟩

theorem witness_AssemblerWordsAndRanges :
    (0xFFFFFFFF : Nat) < 2 ^ 32 ∧ 2 ^ 32 ≤ (0x100000000 : Nat) ∧ (0xFF : Nat) < 2 ^ 8 ∧ 2 ^ 8 ≤ (0x100 : Nat) ∧
    [Flag.lut, .refin].Nodup ∧ ¬ [Flag.lut, .lut].Nodup := by decide +kernel

theorem witness_PseudoInstructionsAreTheirExpansions : ∀ c ∈ ['1', '~'], c.toNat < 128 ∧ c ≠ '"' := by simp

end Sys2Proof.Tests
end

