-- ==== Sys2Proof/Proofs/Configuration.lean ====
section
/-! The committed configuration and the table change only by a CONFIGURE that succeeds (spec/10_state.md R40). -/

namespace Sys2Proof.Machine

/-! ### Keeping the configuration -/

theorem State.SameConfig.refl (s : State) : s.SameConfig s := ⟨rfl, rfl, rfl, rfl, rfl, rfl, rfl, rfl⟩

theorem State.SameConfig.trans {s t u : State} (hst : s.SameConfig t) (htu : t.SameConfig u) : s.SameConfig u := by
  obtain ⟨hpoly, hinit, hxorout, hrefin, hrefout, huse, hlut, hvalid⟩ := hst
  obtain ⟨hpoly', hinit', hxorout', hrefin', hrefout', huse', hlut', hvalid'⟩ := htu
  exact ⟨hpoly'.trans hpoly, hinit'.trans hinit, hxorout'.trans hxorout, hrefin'.trans hrefin,
    hrefout'.trans hrefout, huse'.trans huse, hlut'.trans hlut, hvalid'.trans hvalid⟩

theorem sameConfig_responsesTaken (s : State) : s.SameConfig (responsesTaken s) := .refl s

/-- A discarded command, an error entry, an emission and the effect of every rule but `commit` write none of the fields of
`SameConfig`. -/
theorem exec_sameConfig_or_configure {i : Instr} {s t : State} (h : exec i s = .next t) :
    s.SameConfig t ∨ ((∃ ri ro ul, i = .configure ri ro ul) ∧ s.faulted = false ∧ s.active = false) := by
  rcases exec_next_cases h with ⟨_, rfl⟩ | ⟨_, _, rfl⟩ | ⟨_, rfl, _⟩ | ⟨hf, h⟩
  · exact .inl (.refl _)
  · exact .inl (.refl s)
  · exact .inl (.refl s)
  · rcases h with ⟨_, _, rfl⟩ | ⟨_, _, rfl⟩ | ⟨_, _, rfl⟩ | ⟨ri, ro, ul, hi, ha, -⟩ | ⟨_, _, _, rfl⟩ |
      ⟨_, _, _, _, _, _, _, _, rfl⟩ | ⟨_, _, _, _, _, rfl⟩
    · exact .inl (.refl s)
    · exact .inl (.refl s)
    · exact .inl (.refl s)
    · exact .inr ⟨⟨ri, ro, ul, hi⟩, hf, ha⟩
    · exact .inl (.refl s)
    · exact .inl (.refl s)
    · exact .inl (.refl s)

theorem acceptWord_sameConfig_or_configure {cw : CmdWord} {s t : State} (h : acceptWord cw s = .next t) :
    s.SameConfig t ∨
      ((∃ ri ro ul, decode cw = .ok (.configure ri ro ul)) ∧ s.faulted = false ∧ s.active = false) := by
  rcases acceptWord_next_cases h with ⟨i, hd, he⟩ | ⟨_, rfl⟩ | ⟨_, _, rfl⟩
  · rcases exec_sameConfig_or_configure he with hsame | ⟨⟨ri, ro, ul, rfl⟩, hlive⟩
    · exact .inl hsame
    · exact .inr ⟨⟨ri, ro, ul, hd⟩, hlive⟩
  · exact .inl (.refl _)
  · exact .inl (.refl s)

/-! ### Runs of words -/

/-- A run of words that answers a next state passes through the next state of its first word. -/
theorem acceptWords_cons_next_iff {cw : CmdWord} {rest : List CmdWord} {s t : State} :
    acceptWords (cw :: rest) s = .next t ↔
      ∃ u, acceptWord cw (responsesTaken s) = .next u ∧ acceptWords rest u = .next t := by
  rw [acceptWords]
  cases acceptWord cw (responsesTaken s) <;> simp

/-- The induction over the words: the first one keeps the configuration, and the rest is the shorter run; or it is the
CONFIGURE asked for, with nothing before it. -/
theorem acceptWords_sameConfig_or_configure {ws : List CmdWord} {s t : State} (h : acceptWords ws s = .next t) :
    s.SameConfig t ∨
      ∃ before cw after u, ws = before ++ cw :: after ∧ acceptWords before s = .next u ∧ s.SameConfig u ∧
        (∃ ri ro ul, decode cw = .ok (.configure ri ro ul)) ∧ u.faulted = false ∧ u.active = false := by
  induction ws generalizing s with
  | nil => cases h; exact .inl (.refl _)
  | cons cw rest ih =>
    obtain ⟨v, hword, hrest⟩ := acceptWords_cons_next_iff.mp h
    rcases acceptWord_sameConfig_or_configure hword with hsv | hconf
    · have hsv : s.SameConfig v := (sameConfig_responsesTaken s).trans hsv
      rcases ih hrest with hvt | ⟨before, cw', after, u, rfl, hbefore, hvu, hconf⟩
      · exact .inl (hsv.trans hvt)
      · exact .inr ⟨cw :: before, cw', after, u, rfl, acceptWords_cons_next_iff.mpr ⟨v, hword, hbefore⟩,
          hsv.trans hvu, hconf⟩
    · exact .inr ⟨[], cw, rest, s, rfl, rfl, .refl s, hconf⟩

/-! ### O20 -/

/-- Settles O20: word by word from what a command can do, and by induction over the words of a run. -/
theorem configurationIsImmutableBetweenConfigures : Obligations.ConfigurationIsImmutableBetweenConfigures :=
  ⟨fun _ _ _ => acceptWord_sameConfig_or_configure, fun _ _ _ => acceptWords_sameConfig_or_configure⟩

end Sys2Proof.Machine
end

