-- ==== Sys2Proof/Proofs/Encoding.lean ====
section
/-! The encoding of the commands (spec/30_encoding.md R73 to R78), row by row of the opcode table: the opcode picks the row,
the reserved bits of the row decide between its command and RESERVED_NONZERO, and no row means ILLEGAL_OPCODE. -/

namespace Sys2Proof.Machine

/-! ### The rows of the opcode table -/

theorem opcodeTable_opcs : opcodeTable.map Row.opc = definedOpcodes := rfl

theorem mem_definedOpcodes_iff {o : Byte} : o ∈ definedOpcodes ↔ ∃ r ∈ opcodeTable, r.opc = o := by
  rw [← opcodeTable_opcs, List.mem_map]

/-- No two rows have the same opcode. -/
theorem row_eq_of_opc_eq {r r' : Row} (hr : r ∈ opcodeTable) (hr' : r' ∈ opcodeTable) (h : r.opc = r'.opc) : r = r' :=
  List.inj_on_of_nodup_map (by decide : (opcodeTable.map Row.opc).Nodup) hr hr' h

theorem find?_row {r : Row} (hr : r ∈ opcodeTable) : opcodeTable.find? (fun x => x.opc == r.opc) = some r := by
  cases hfind : opcodeTable.find? (fun x => x.opc == r.opc) with
  | none => exact absurd (beq_self_eq_true r.opc) (List.find?_eq_none.mp hfind r hr)
  | some r' => rw [row_eq_of_opc_eq (List.mem_of_find?_eq_some hfind) hr (by simpa using List.find?_some hfind)]

/-- The four fields of a row's mask, of its reserved bits (R72) and of its match. -/
theorem row_fields : ∀ r ∈ opcodeTable, ∃ c v, r.mask = fourFields 255#8 65535#16 c v ∧
    reservedBits r.opc = fourFields 0#8 65535#16 c v ∧ r.pattern = fourFields r.opc 0#16 0#8 0#32 := by
  have hfields : ∀ r ∈ opcodeTable,
      r.mask = fourFields 255#8 65535#16 (r.mask.extractLsb' 32 8) (imm32Field r.mask) ∧
      reservedBits r.opc = fourFields 0#8 65535#16 (r.mask.extractLsb' 32 8) (imm32Field r.mask) ∧
      r.pattern = fourFields r.opc 0#16 0#8 0#32 := by decide
  exact fun r hr => ⟨_, _, hfields r hr⟩

/-- A word matches a row (R74) exactly when it has the row's opcode and no reserved bit set. -/
theorem matches_row_iff {r : Row} (hr : r ∈ opcodeTable) (cw : CmdWord) :
    cw &&& r.mask = r.pattern ↔ opcField cw = r.opc ∧ cw &&& reservedBits r.opc = 0 := by
  obtain ⟨c', v', hmask, hreserved, hpattern⟩ := row_fields r hr
  obtain ⟨o, rsv, c, v, rfl⟩ := exists_fourFields cw
  have hzero : (0 : CmdWord) = fourFields 0#8 0#16 0#8 0#32 := by decide
  have hrsv : rsv &&& 65535#16 = rsv := BitVec.and_allOnes
  rw [hmask, hreserved, hpattern, hzero, fourFields_and_eq_iff, fourFields_and, fourFields_inj, opcField_fourFields, hrsv]
  simp

theorem opc_read : ∀ r ∈ opcodeTable, ∀ cw, (r.read cw).opc = r.opc := by
  simp [opcodeTable, Instr.opc]

/-! ### The decoder by its rows (R75) -/

theorem decode_of_row {r : Row} (hr : r ∈ opcodeTable) {cw : CmdWord} (ho : opcField cw = r.opc) :
    decode cw = if cw &&& reservedBits (opcField cw) = 0 then .ok (r.read cw) else .error .reservedNonzero := by
  simp only [decode, ho, find?_row hr, matches_row_iff hr, true_and]

/-- R76: the undefined opcodes, and no other words. -/
theorem decode_illegalOpcode_iff {cw : CmdWord} : decode cw = .error .illegalOpcode ↔ opcField cw ∉ definedOpcodes := by
  constructor
  · intro h hdef
    obtain ⟨r, hr, ho⟩ := mem_definedOpcodes_iff.mp hdef
    rw [decode_of_row hr ho.symm] at h
    split at h <;> cases h
  · intro hundef
    have hfind : opcodeTable.find? (fun r => r.opc == opcField cw) = none :=
      List.find?_eq_none.mpr fun r hr ho => hundef (mem_definedOpcodes_iff.mpr ⟨r, hr, by simpa using ho⟩)
    simp only [decode, hfind]

/-- R77. -/
theorem decode_of_reserved {cw : CmdWord} (hdef : opcField cw ∈ definedOpcodes)
    (hbits : cw &&& reservedBits (opcField cw) ≠ 0) : decode cw = .error .reservedNonzero := by
  obtain ⟨r, hr, ho⟩ := mem_definedOpcodes_iff.mp hdef
  rw [decode_of_row hr ho.symm, if_neg hbits]

/-- R74: the words that decode are those that match a row, each to the command the row reads from it. -/
theorem decode_ok_iff {cw : CmdWord} {i : Instr} :
    decode cw = .ok i ↔ ∃ r ∈ opcodeTable, cw &&& r.mask = r.pattern ∧ r.read cw = i := by
  constructor
  · intro h
    have hdef : opcField cw ∈ definedOpcodes := by
      by_contra hundef
      rw [decode_illegalOpcode_iff.mpr hundef] at h
      cases h
    obtain ⟨r, hr, ho⟩ := mem_definedOpcodes_iff.mp hdef
    rw [decode_of_row hr ho.symm] at h
    obtain ⟨hbits, hi⟩ := row_ok h
    exact ⟨r, hr, (matches_row_iff hr cw).mpr ⟨ho.symm, ho ▸ hbits⟩, hi.symm⟩
  · rintro ⟨r, hr, hmatch, rfl⟩
    obtain ⟨ho, hbits⟩ := (matches_row_iff hr cw).mp hmatch
    rw [decode_of_row hr ho, ho, if_pos hbits]

/-- A word that decodes to a command of a row matches the row: the command's opcode says which row it was read by. -/
theorem matches_row_of_decode {r : Row} (hr : r ∈ opcodeTable) {cw : CmdWord} {i : Instr} (hi : i.opc = r.opc)
    (h : decode cw = .ok i) : cw &&& r.mask = r.pattern := by
  obtain ⟨r', hr', hmatch, rfl⟩ := decode_ok_iff.mp h
  rwa [row_eq_of_opc_eq hr hr' (hi.symm.trans (opc_read r' hr' cw))]

/-- Both directions of R74 for the row with index `k`. -/
theorem row_selects (k : Fin 10) (cw : CmdWord) :
    (cw &&& opcodeTable[k].mask = opcodeTable[k].pattern → decode cw = .ok (opcodeTable[k].read cw)) ∧
      ∀ i : Instr, i.opc = opcodeTable[k].opc → decode cw = .ok i → cw &&& opcodeTable[k].mask = opcodeTable[k].pattern :=
  have hr : opcodeTable[k] ∈ opcodeTable := List.getElem_mem (by exact k.isLt)
  ⟨fun hmatch => decode_ok_iff.mpr ⟨_, hr, hmatch, rfl⟩, fun _ => matches_row_of_decode hr⟩

/-- No bit of a word that decodes is lost: its reserved bits are zero, and its operand fields are the command's operands. -/
theorem encode_of_decode {cw : CmdWord} {i : Instr} (h : decode cw = .ok i) : encode i = cw := by
  obtain ⟨o, r, c, v, rfl⟩ := exists_fourFields cw
  rcases decode_fourFields_ok h with ⟨rfl, ⟨rfl, rfl⟩, rfl⟩ | ⟨rfl, ⟨rfl, rfl⟩, rfl⟩ | ⟨rfl, ⟨rfl, rfl⟩, rfl⟩ |
    ⟨rfl, ⟨rfl, hc, rfl⟩, rfl⟩ | ⟨rfl, ⟨rfl, rfl, rfl⟩, rfl⟩ | ⟨rfl, ⟨rfl, rfl, hv⟩, rfl⟩ | ⟨rfl, ⟨rfl, rfl, rfl⟩, rfl⟩ |
    ⟨rfl, ⟨rfl, rfl, hv⟩, rfl⟩ | ⟨rfl, ⟨rfl, rfl, hv⟩, rfl⟩ | ⟨rfl, ⟨rfl, hc⟩, rfl⟩
  · rfl
  · rfl
  · rfl
  · rw [encode, ctl_of_three_bits c hc, mkWord_eq_fourFields]
  · rfl
  · rw [encode, (and_upper_eq_zero_iff v).mp hv, mkWord_eq_fourFields]
  · rfl
  · rw [encode, (and_upper_eq_zero_iff v).mp hv, mkWord_eq_fourFields]
  · rw [encode, (and_upper_eq_zero_iff v).mp hv, mkWord_eq_fourFields]
  · rw [encode, ctl_of_one_bit c hc, mkWord_eq_fourFields]

/-! ### Accepting a word that is no command -/

/-- R220 for the two errors of the decoder: the error record is all that changes. -/
theorem acceptWord_of_error_live {cw : CmdWord} {e : DecodeError} {s : State} (h : decode cw = .error e)
    (hf : s.faulted = false) : acceptWord cw s = .next (s.withError (decodeErrorCode e).byte cw) := by
  rw [acceptWord_of_error h, raiseError_of_live hf]
  rfl

/-! ### O3 to O6 -/

/-- Settles O3: each row by its index in the table. -/
theorem matchAndMaskSelectEachCommand : Obligations.MatchAndMaskSelectEachCommand := fun cw =>
  ⟨⟨(row_selects 0 cw).1, fun _ => (row_selects 0 cw).2 _ rfl⟩,
    ⟨(row_selects 1 cw).1, fun _ => (row_selects 1 cw).2 _ rfl⟩,
    ⟨(row_selects 2 cw).1, fun _ => (row_selects 2 cw).2 _ rfl⟩,
    ⟨(row_selects 3 cw).1, fun _ _ _ => (row_selects 3 cw).2 _ rfl⟩,
    ⟨(row_selects 4 cw).1, (row_selects 4 cw).2 _ rfl⟩,
    ⟨(row_selects 5 cw).1, fun _ => (row_selects 5 cw).2 _ rfl⟩,
    ⟨(row_selects 6 cw).1, (row_selects 6 cw).2 _ rfl⟩,
    ⟨(row_selects 7 cw).1, fun _ => (row_selects 7 cw).2 _ rfl⟩,
    ⟨(row_selects 8 cw).1, fun _ => (row_selects 8 cw).2 _ rfl⟩,
    ⟨(row_selects 9 cw).1, fun _ _ => (row_selects 9 cw).2 _ rfl⟩⟩

/-- Settles O4: no row; a row and a reserved bit; a row and none. -/
theorem everyWordIsACommandOrAnError : Obligations.EveryWordIsACommandOrAnError := by
  refine fun cw => ⟨decode_illegalOpcode_iff.mpr, decode_of_reserved, fun hdef hbits => ?_⟩
  obtain ⟨r, hr, ho⟩ := mem_definedOpcodes_iff.mp hdef
  have hok : decode cw = .ok (r.read cw) := by rw [decode_of_row hr ho.symm, if_pos hbits]
  exact ⟨r.read cw, hok, (opc_read r hr cw).trans ho, encode_of_decode hok⟩

/-- The gaps between the ten opcodes of R74, as R76 lists them. -/
theorem not_mem_definedOpcodes_iff (o : Byte) :
    (o.toNat = 0x00 ∨ (0x05 ≤ o.toNat ∧ o.toNat ≤ 0x0F) ∨ (0x13 ≤ o.toNat ∧ o.toNat ≤ 0x1F) ∨ 0x23 ≤ o.toNat) ↔
      o ∉ definedOpcodes := by
  simp only [definedOpcodes, List.mem_cons, List.not_mem_nil, or_false, ← BitVec.toNat_inj, BitVec.reduceToNat]
  omega

/-- Settles O5: the illegal words are those with no row, and the opcodes with no row are the gaps of R76. -/
theorem reservedOpcodesAreIllegal : Obligations.ReservedOpcodesAreIllegal :=
  ⟨fun cw => (not_mem_definedOpcodes_iff (opcField cw)).trans decode_illegalOpcode_iff.symm,
    fun _ _ => acceptWord_of_error_live, by decide +kernel, by decide⟩

/-- Settles O6: such a word decodes to RESERVED_NONZERO, whose error entry has code 0x02. -/
theorem reservedBitsAreNeverIgnored : Obligations.ReservedBitsAreNeverIgnored :=
  fun _ _ hf hdef hbits => acceptWord_of_error_live (decode_of_reserved hdef hbits) hf

end Sys2Proof.Machine
end

