-- ==== Sys2Proof/Proofs/Construction.lean ====
section
/-! The construction commands (spec/40_construction.md R101 to R107): what a staging command and CONFIGURE answer outside
FAULTED mode, and the reserved bits of their words as fields of the word. -/

namespace Sys2Proof.Machine

/-! ### Reserved bits as fields of a word -/

/-- The mask of the field cw[start+len-1 : start]. -/
def fieldMask (start len : Nat) : CmdWord := (BitVec.allOnes len).setWidth 64 <<< start

theorem getLsbD_fieldMask {start len : Nat} (h : start + len ≤ 64) (k : Nat) :
    (fieldMask start len).getLsbD k = decide (start ≤ k ∧ k < start + len) := by
  simp only [fieldMask, BitVec.getLsbD_shiftLeft, BitVec.getLsbD_setWidth, BitVec.getLsbD_allOnes]
  grind

/-- The field is zero exactly when its mask leaves nothing of the word. -/
theorem and_fieldMask_eq_zero_iff {start len : Nat} (h : start + len ≤ 64) (cw : CmdWord) :
    cw &&& fieldMask start len = 0#64 ↔ cw.extractLsb' start len = 0#len := by
  simp only [BitVec.zero_iff_eq_false, BitVec.getLsbD_and, BitVec.getLsbD_extractLsb']
  constructor
  · intro hmasked j
    by_cases hj : j < len
    · simpa [getLsbD_fieldMask h, hj] using hmasked (start + j)
    · simp [hj]
  · intro hfield k
    by_cases hk : start ≤ k ∧ k < start + len
    · obtain ⟨j, rfl⟩ := Nat.exists_eq_add_of_le hk.1
      have hbit : cw.getLsbD (start + j) = false := by simpa [show j < len by omega] using hfield j
      simp [hbit]
    · simp [getLsbD_fieldMask h, hk]

/-- R72, format V: cw[55:32] is reserved. -/
theorem and_valueReserved_eq_zero_iff {cw : CmdWord}
    (ho : opcField cw = 0x01 ∨ opcField cw = 0x02 ∨ opcField cw = 0x03) :
    cw &&& reservedBits (opcField cw) = 0#64 ↔ cw.extractLsb' 32 24 = 0#24 := by
  have hmask : reservedBits (opcField cw) = fieldMask 32 24 := by
    rcases ho with ho | ho | ho <;> rw [ho] <;> decide
  rw [hmask, and_fieldMask_eq_zero_iff (by omega)]

/-- R72, format F: cw[55:35] and cw[31:0] are reserved. -/
theorem and_configureReserved_eq_zero_iff {cw : CmdWord} (ho : opcField cw = 0x04) :
    cw &&& reservedBits (opcField cw) = 0#64 ↔ cw.extractLsb' 35 21 = 0#21 ∧ cw.extractLsb' 0 32 = 0#32 := by
  have hmask : reservedBits (opcField cw) = fieldMask 35 21 ||| fieldMask 0 32 := by rw [ho]; decide
  rw [hmask, BitVec.and_or_distrib_left, BitVec.or_eq_zero_iff, and_fieldMask_eq_zero_iff (by omega),
    and_fieldMask_eq_zero_iff (by omega)]

/-- R74: opcode 0x04 is CONFIGURE's alone. -/
theorem eq_configure_of_opc {i : Instr} (h : i.opc = 0x04) : ∃ ri ro ul, i = .configure ri ro ul := by
  cases i with
  | configure ri ro ul => exact ⟨ri, ro, ul, rfl⟩
  | _ => exact absurd h (by simp [Instr.opc])

/-! ### The words of the staging commands -/

/-- A word with an opcode and an operand and no other bit set. -/
theorem opcode_or_operand (o : Byte) (v : Word) : o.setWidth 64 <<< 56 ||| v.setWidth 64 = fourFields o 0 0 v := by
  apply BitVec.eq_of_getLsbD_eq
  intro k hk
  simp only [getLsbD_fourFields, BitVec.getLsbD_or, BitVec.getLsbD_shiftLeft, BitVec.getLsbD_setWidth]
  grind

/-- Accepting such a word runs the command its two fields decode to. -/
theorem acceptWord_opcode_or_operand {o : Byte} {v : Word} {i : Instr} (h : decode (fourFields o 0 0 v) = .ok i)
    (s : State) : acceptWord (o.setWidth 64 <<< 56 ||| v.setWidth 64) s = exec i s := by
  rw [opcode_or_operand, acceptWord_of_decode h]

/-! ### The commands outside FAULTED mode -/

theorem exec_setpoly_of_live {s : State} (hf : s.faulted = false) (v : Word) :
    exec (.setpoly v) s = .next { s with polyS := v } := by simp [exec_setpoly, hf]

theorem exec_setinit_of_live {s : State} (hf : s.faulted = false) (v : Word) :
    exec (.setinit v) s = .next { s with initS := v } := by simp [exec_setinit, hf]

theorem exec_setxor_of_live {s : State} (hf : s.faulted = false) (v : Word) :
    exec (.setxor v) s = .next { s with xorS := v } := by simp [exec_setxor, hf]

/-- R107: an open session refuses CONFIGURE. -/
theorem exec_configure_of_active {s : State} (hf : s.faulted = false) (ha : s.active = true) (ri ro ul : Bool) :
    exec (.configure ri ro ul) s = .next (s.withError 0x05 (encode (.configure ri ro ul))) := by
  rw [exec_configure, if_neg (by simp [hf]), if_pos ha]
  rfl

/-- R105, R106: outside a session CONFIGURE commits, whatever is staged. -/
theorem exec_configure_of_idle {s : State} (hf : s.faulted = false) (ha : s.active = false) (ri ro ul : Bool) :
    exec (.configure ri ro ul) s = .next (commit ri ro ul s) := by simp [exec_configure, hf, ha]

/-- R105: CONFIGURE leaves the mode READY. -/
theorem mode_commit {s : State} (hf : s.faulted = false) (ha : s.active = false) (ri ro ul : Bool) :
    (commit ri ro ul s).mode = .ready := mode_ready_iff.mpr ⟨hf, ha, rfl⟩

/-- At W = 32 masking drops nothing. -/
theorem trunc_w32 (v : Word) : trunc .w32 v = v := trunc_of_lt v.isLt

/-! ### O15 to O18 -/

/-- Settles O15: the fields of the three words decode to their commands, and cw[55:32] are the reserved bits of the three. -/
theorem stagingCommandsWriteRawValues : Obligations.StagingCommandsWriteRawValues := by
  intro s hf
  have hpoly : ∀ v : Word, acceptWord (0x0100000000000000 ||| v.setWidth 64) s = .next { s with polyS := v } :=
    fun v => (acceptWord_opcode_or_operand (decode_fourFields 0x01 0 0 v) s).trans (exec_setpoly_of_live hf v)
  have hinit : ∀ v : Word, acceptWord (0x0200000000000000 ||| v.setWidth 64) s = .next { s with initS := v } :=
    fun v => (acceptWord_opcode_or_operand (decode_fourFields 0x02 0 0 v) s).trans (exec_setinit_of_live hf v)
  have hxor : ∀ v : Word, acceptWord (0x0300000000000000 ||| v.setWidth 64) s = .next { s with xorS := v } :=
    fun v => (acceptWord_opcode_or_operand (decode_fourFields 0x03 0 0 v) s).trans (exec_setxor_of_live hf v)
  refine ⟨fun v => ⟨exec_setpoly_of_live hf v, hpoly v⟩, fun v => ⟨exec_setinit_of_live hf v, hinit v⟩,
    fun v => ⟨exec_setxor_of_live hf v, hxor v⟩, fun cw ho hfield => ?_, hpoly 0x04C11DB7, hinit 0xFFFFFFFF,
    hxor 0xFFFFFFFF⟩
  have hdef : opcField cw ∈ definedOpcodes := by rcases ho with ho | ho | ho <;> rw [ho] <;> decide
  exact reservedBitsAreNeverIgnored cw s hf hdef (mt (and_valueReserved_eq_zero_iff ho).mp hfield)

/-- Settles O16: the refusal inside a session, and outside one the fields of `commit`. -/
theorem configureCommitsAndBuildsTheTable : Obligations.ConfigureCommitsAndBuildsTheTable := fun s ri ro ul hf =>
  ⟨fun ha => exec_configure_of_active hf ha ri ro ul,
    fun ha => ⟨commit ri ro ul s, exec_configure_of_idle hf ha ri ro ul, toNat_trunc _ _, toNat_trunc _ _,
      toNat_trunc _ _, rfl, rfl, rfl, lutAt_commit ri ro ul s, rfl, rfl, mode_commit hf ha ri ro ul, rfl⟩⟩

/-- Settles O17: a reserved bit is met by the decoder; without one the word is a CONFIGURE, which the session refuses. -/
theorem configureErrorsInOrder : Obligations.ConfigureErrorsInOrder := by
  intro s cw hf ho
  have hdef : opcField cw ∈ definedOpcodes := by rw [ho]; decide
  refine ⟨fun hfields => reservedBitsAreNeverIgnored cw s hf hdef ?_, fun hhigh hlow ha => ?_⟩
  · intro hzero
    obtain ⟨hhigh, hlow⟩ := (and_configureReserved_eq_zero_iff ho).mp hzero
    exact hfields.elim (· hhigh) (· hlow)
  · obtain ⟨-, -, hcommand⟩ := everyWordIsACommandOrAnError cw
    obtain ⟨i, hi, hopc, hword⟩ := hcommand hdef ((and_configureReserved_eq_zero_iff ho).mpr ⟨hhigh, hlow⟩)
    obtain ⟨ri, ro, ul, rfl⟩ := eq_configure_of_opc (hopc.trans ho)
    rw [acceptWord_of_decode hi, exec_configure_of_active hf ha, hword]

/-- Settles O18: CONFIGURE answers `commit`, and a second time too, since `commit` keeps the staging registers and neither
faults nor opens a session. -/
theorem configureMasksAndNeverRejects : Obligations.ConfigureMasksAndNeverRejects := by
  refine ⟨fun s ri ro ul hf ha => ?_, fun w ri ro ul =>
    ⟨commit ri ro ul (State.resetAt w), exec_configure_of_idle rfl rfl ri ro ul, trunc_zero w, trunc_zero w, trunc_zero w⟩⟩
  refine ⟨commit ri ro ul s, exec_configure_of_idle hf ha ri ro ul, hf, lutAt_commit ri ro ul s, toNat_trunc _ _,
    toNat_trunc _ _, toNat_trunc _ _, ?w8, ?w16, ?w32, rfl, rfl, rfl, fun ri' ro' ul' => ?again⟩
  case w8 =>
    intro hw hpoly
    rw [commit_poly, hw, hpoly]
    decide
  case w16 =>
    intro hw hinit
    rw [commit_init, hw, hinit]
    decide
  case w32 =>
    intro hw
    simp [hw, trunc_w32]
  case again =>
    exact ⟨_, exec_configure_of_idle (s := commit ri ro ul s) hf ha ri' ro' ul', rfl, rfl, rfl, rfl, rfl, rfl, rfl,
      lutAt_commit ri' ro' ul' (commit ri ro ul s)⟩

end Sys2Proof.Machine
end

