-- ==== Sys2Proof/Proofs/Reflection.lean ====
section
/-! The bit-reflection unit (spec/41_reflection.md R123 to R127): the constant table against the loop of R120, and what REFLECT
answers. -/

namespace Sys2Proof.Machine

/-! ### The constant table -/

/-- R123: the 256 printed entries of R124, each compared with the loop of R120. -/
theorem zextByte_reflectByte : ∀ b : Byte, zextByte (reflectByte b) = reflect 8 (zextByte b) := by decide +kernel

/-! ### Emitting -/

/-- `emit` appends its word and touches the response channel only (R13). -/
theorem emits_next_emit (v : Word) (s : State) : Emits (.next (emit v s)) s v := ⟨emit v s, rfl, emit_resp v s, rfl⟩

/-! ### REFLECT -/

/-- R12: masking to W bits, as arithmetic. -/
theorem ofNat_mod_two_pow_bits (w : Width) (v : Word) : BitVec.ofNat 32 (v.toNat % 2 ^ w.bits) = trunc w v := by
  rw [← toNat_trunc, BitVec.ofNat_toNat, BitVec.setWidth_eq]

/-- R127, BM = 0. -/
theorem reflectOperand_word (w : Width) (v : Word) :
    reflectOperand w false v = reflect w.bits (BitVec.ofNat 32 (v.toNat % 2 ^ w.bits)) := by
  rw [ofNat_mod_two_pow_bits]
  rfl

/-- R127, BM = 1. -/
theorem reflectOperand_byte (w : Width) (v : Word) :
    reflectOperand w true v = zextByte (reflectByte (v.extractLsb' 0 8)) := by
  rw [← BitVec.setWidth_eq_extractLsb' (by decide)]
  rfl

theorem exec_reflect_of_live {s : State} (hf : s.faulted = false) (bm : Bool) (v : Word) :
    exec (.reflect bm v) s = .next (emit (reflectOperand s.width bm v) s) := by simp [exec_reflect, hf]

/-- R221. -/
theorem exec_reflect_of_faulted {s : State} (hf : s.faulted = true) (bm : Bool) (v : Word) :
    exec (.reflect bm v) s = .next s := by simp [exec_reflect, hf]

/-- R127: outside FAULTED mode REFLECT emits its operand's reflection. -/
theorem emits_exec_reflect {s : State} (hf : s.faulted = false) (bm : Bool) (v : Word) :
    Emits (exec (.reflect bm v) s) s (reflectOperand s.width bm v) := by
  rw [exec_reflect_of_live hf]
  exact emits_next_emit _ s

/-- R72, format R: cw[55:33] is reserved. -/
theorem and_reflectReserved_eq_zero_iff {cw : CmdWord} (ho : opcField cw = 0x22) :
    cw &&& reservedBits (opcField cw) = 0#64 ↔ cw.extractLsb' 33 23 = 0#23 := by
  have hmask : reservedBits (opcField cw) = fieldMask 33 23 := by rw [ho]; decide
  rw [hmask, and_fieldMask_eq_zero_iff (by omega)]

/-! ### O23 and O24 -/

/-- Settles O23: `reflectByte` reads the table by definition. -/
theorem rromHoldsByteReflections : Obligations.RromHoldsByteReflections := fun i => ⟨zextByte_reflectByte i, rfl⟩

/-- Settles O24: the emitted operand for either BM; a reserved bit is met by the decoder; FAULTED mode discards. -/
theorem reflectEmitsTheReflection : Obligations.ReflectEmitsTheReflection := by
  refine fun s => ⟨fun v hf => ?word, fun v hf => ?byte, fun cw hf ho hfield => ?reserved,
    fun bm v hf => exec_reflect_of_faulted hf bm v⟩
  case word =>
    rw [← reflectOperand_word]
    exact emits_exec_reflect hf false v
  case byte =>
    rw [← reflectOperand_byte s.width]
    exact emits_exec_reflect hf true v
  case reserved =>
    have hdef : opcField cw ∈ definedOpcodes := by rw [ho]; decide
    exact reservedBitsAreNeverIgnored cw s hf hdef (mt (and_reflectReserved_eq_zero_iff ho).mp hfield)

end Sys2Proof.Machine
end

