-- ==== Sys2Proof/Proofs/Divider.lean ====
section
/-! The divider and READLUT (spec/42_divider_lut.md R142, R150): one round as arithmetic on natural numbers, and what
READLUT answers. -/

namespace Sys2Proof.Machine

/-! ### One divider round (R142) -/

/-- The bit that leaves the 32-bit word stands at or above W (R12). -/
theorem toNat_trunc_shiftLeft_one (w : Width) (c : Word) : (trunc w (c <<< 1)).toNat = 2 * c.toNat % 2 ^ w.bits := by
  rw [toNat_trunc, BitVec.toNat_shiftLeft, Nat.mod_mod_of_dvd _ (Nat.pow_dvd_pow 2 (Width.bits_le w)), Nat.shiftLeft_eq,
    pow_one, Nat.mul_comm]

theorem divRound_of_top_clear {w : Width} {c : Word} (htop : c.getLsbD (w.bits - 1) = false) (poly : Word) :
    divRound w poly c = trunc w (c <<< 1) := by simp [divRound, htop]

/-- Masking before the XOR or after it is the same, since POLY has no bit at or above W. -/
theorem divRound_of_top_set {w : Width} {poly c : Word} (hpoly : poly.toNat < 2 ^ w.bits)
    (htop : c.getLsbD (w.bits - 1) = true) : divRound w poly c = trunc w (c <<< 1) ^^^ poly := by
  rw [divRound, if_pos htop, trunc_xor, trunc_of_lt hpoly]

/-! ### READLUT (R150) -/

theorem exec_readlut_of_entry {s : State} {idx : Byte} {v : Word} (hf : s.faulted = false) (hc : s.configured = true)
    (hl : s.lutValid = true) (hv : lutAt s.lut idx = some v) : exec (.readlut idx) s = .next (emit v s) := by
  simp [exec_readlut, hf, hc, hl, hv]

theorem exec_readlut_of_not_configured {s : State} (hf : s.faulted = false) (hc : s.configured = false) (idx : Byte) :
    exec (.readlut idx) s = .next (s.withError 0x03 (encode (.readlut idx))) := by
  rw [exec_readlut, if_neg (by simp [hf]), if_pos (by simp [hc])]
  rfl

theorem exec_readlut_of_no_table {s : State} (hf : s.faulted = false) (hc : s.configured = true)
    (hl : s.lutValid = false) (idx : Byte) :
    exec (.readlut idx) s = .next (s.withError 0x07 (encode (.readlut idx))) := by
  rw [exec_readlut, if_neg (by simp [hf]), if_neg (by simp [hc]), if_pos (by simp [hl])]
  rfl

/-- R221. -/
theorem exec_readlut_of_faulted {s : State} (hf : s.faulted = true) (idx : Byte) :
    exec (.readlut idx) s = .next s := by simp [exec_readlut, hf]

/-- R72, format B: cw[55:8] is reserved. -/
theorem and_byteReserved_eq_zero_iff {cw : CmdWord}
    (ho : opcField cw = 0x11 ∨ opcField cw = 0x20 ∨ opcField cw = 0x21) :
    cw &&& reservedBits (opcField cw) = 0#64 ↔ cw.extractLsb' 8 48 = 0#48 := by
  have hmask : reservedBits (opcField cw) = fieldMask 8 48 := by
    rcases ho with ho | ho | ho <;> rw [ho] <;> decide
  rw [hmask, and_fieldMask_eq_zero_iff (by omega)]

/-! ### O25 and O28 -/

/-- Settles O25: by the top bit, with the XOR distributed over the remainder by 2^W. -/
theorem roundShiftsAndConditionallyXors : Obligations.RoundShiftsAndConditionallyXors := by
  refine fun w poly c hpoly _ => ⟨fun htop => ?set, fun htop => ?clear, divRound_lt w poly c⟩
  case set =>
    have hround : (divRound w poly c).toNat = 2 * c.toNat % 2 ^ w.bits ^^^ poly.toNat := by
      rw [divRound_of_top_set hpoly htop, BitVec.toNat_xor, toNat_trunc_shiftLeft_one]
    refine ⟨?_, hround⟩
    rw [hround, Nat.xor_mod_two_pow, Nat.mod_eq_of_lt hpoly]
  case clear =>
    rw [divRound_of_top_clear htop, toNat_trunc_shiftLeft_one]

/-- Settles O28: the present entry is emitted; a reserved bit is met by the decoder; then the two checks in their order;
FAULTED mode discards. -/
theorem readlutEmitsTheEntry : Obligations.ReadlutEmitsTheEntry := by
  refine fun s idx => ⟨fun v hf hc hl hv => ?entry, fun cw hf ho hfield => ?reserved,
    fun hf hc => exec_readlut_of_not_configured hf hc idx, fun hf hc hl => exec_readlut_of_no_table hf hc hl idx,
    fun hf => exec_readlut_of_faulted hf idx⟩
  case entry =>
    rw [exec_readlut_of_entry hf hc hl hv]
    exact emits_next_emit v s
  case reserved =>
    have hdef : opcField cw ∈ definedOpcodes := by rw [ho]; decide
    exact reservedBitsAreNeverIgnored cw s hf hdef (mt (and_byteReserved_eq_zero_iff (.inr (.inr ho))).mp hfield)

end Sys2Proof.Machine
end

