-- ==== Sys2Proof/Proofs/Calculation.lean ====
section
/-! The calculation commands (spec/43_calculate.md R160 to R174): the two update paths as one function, what START, DATA and
FINISH answer outside FAULTED mode, and the session they make together. -/

namespace Sys2Proof.Machine

/-! ### The divider is linear -/

theorem xor_xor_xor_cancel (a p b : Word) : a ^^^ p ^^^ (p ^^^ b) = a ^^^ b := by
  rw [BitVec.xor_assoc, ← BitVec.xor_assoc p, BitVec.xor_self, BitVec.zero_xor]

/-- Two top bits that are set cancel, and so do the two polynomials they bring in. -/
theorem divRound_xor (w : Width) (poly a b : Word) :
    divRound w poly (a ^^^ b) = divRound w poly a ^^^ divRound w poly b := by
  simp only [divRound, BitVec.getLsbD_xor, BitVec.shiftLeft_xor_distrib, trunc_xor]
  cases a.getLsbD (w.bits - 1) <;> cases b.getLsbD (w.bits - 1)
  case true.true => simp [BitVec.xor_comm (trunc w (b <<< 1)) (trunc w poly), xor_xor_xor_cancel]
  case true.false => simp [BitVec.xor_assoc, BitVec.xor_comm]
  case false.true => simp [BitVec.xor_assoc]
  case false.false => rfl

theorem rounds_xor (w : Width) (poly : Word) (k : Nat) (a b : Word) :
    rounds w poly k (a ^^^ b) = rounds w poly k a ^^^ rounds w poly k b := by
  induction k generalizing a b with
  | zero => rfl
  | succ k ih => rw [rounds, divRound_xor, ih]; rfl

theorem div8_xor (w : Width) (poly a b : Word) : div8 w poly (a ^^^ b) = div8 w poly a ^^^ div8 w poly b :=
  rounds_xor w poly 8 a b

/-- While the register has room for every shift, no round meets a top bit that is set. -/
theorem rounds_of_room {w : Width} {k : Nat} {c : Word} (hk : k ≤ w.bits) (hc : c.toNat < 2 ^ (w.bits - k)) (poly : Word) :
    rounds w poly k c = c <<< k := by
  induction k generalizing c with
  | zero => exact (BitVec.shiftLeft_zero c).symm
  | succ k ih =>
    have htop : c.getLsbD (w.bits - 1) = false := (lt_two_pow_iff _ c).mp hc _ (by omega)
    have hdouble : (c <<< 1).toNat < 2 ^ (w.bits - k) := by
      have hpow : 2 ^ (w.bits - k) = 2 * 2 ^ (w.bits - (k + 1)) := by
        rw [← Nat.pow_succ', show (w.bits - (k + 1)).succ = w.bits - k by omega]
      rw [BitVec.toNat_shiftLeft, Nat.shiftLeft_eq]
      exact lt_of_le_of_lt (Nat.mod_le _ _) (by omega)
    have hfits : (c <<< 1).toNat < 2 ^ w.bits :=
      lt_of_lt_of_le hdouble (Nat.pow_le_pow_right (by omega) (Nat.sub_le _ _))
    rw [rounds, divRound_of_top_clear htop, trunc_of_lt hfits, ih (by omega) hdouble, ← BitVec.shiftLeft_add,
      Nat.add_comm 1 k]

/-- Eight rounds shift a value below the top byte up by a byte. -/
theorem div8_of_room {w : Width} {c : Word} (hc : c.toNat < 2 ^ (w.bits - 8)) (poly : Word) :
    div8 w poly c = c <<< 8 := rounds_of_room (Width.le_bits w) hc poly

/-! ### The top byte of the register -/

/-- The byte `acc >> (W-8)` that the LUT path meets the message byte with (R167). -/
def topOf (w : Width) (acc : Word) : Byte := (acc >>> (w.bits - 8)).setWidth 8

theorem lutIndex_eq_topOf_xor (w : Width) (acc : Word) (temp : Byte) : lutIndex w acc temp = topOf w acc ^^^ temp := rfl

theorem getLsbD_topOf (w : Width) (acc : Word) (k : Nat) :
    (topOf w acc).getLsbD k = (decide (k < 8) && acc.getLsbD (w.bits - 8 + k)) := by
  simp [topOf, BitVec.getLsbD_setWidth, BitVec.getLsbD_ushiftRight]

/-- The register without its top byte. -/
theorem xor_topByte_topOf_lt {w : Width} {acc : Word} (h : acc.toNat < 2 ^ w.bits) :
    (acc ^^^ topByte w (topOf w acc)).toNat < 2 ^ (w.bits - 8) := by
  rw [lt_two_pow_iff]
  intro k hk
  rw [BitVec.getLsbD_xor, getLsbD_topByte, getLsbD_topOf, Nat.add_sub_cancel' hk]
  by_cases hin : k < w.bits
  · simp [hk, show k - (w.bits - 8) < 8 by omega]
  · simp [(lt_two_pow_iff w.bits acc).mp h k (by omega)]

/-- A byte at the top of the register is shifted out of it. -/
theorem trunc_topByte_shiftLeft_eight (w : Width) (b : Byte) : trunc w (topByte w b <<< 8) = 0#32 := by
  apply BitVec.eq_of_getLsbD_eq
  intro k _
  rw [getLsbD_trunc, BitVec.getLsbD_shiftLeft, getLsbD_topByte]
  have := Width.le_bits w
  have hout : ¬ (k < w.bits ∧ ¬ k < 8 ∧ w.bits - 8 ≤ k - 8) := by omega
  grind

/-- The shift of the LUT path drops the top byte and keeps the rest. -/
theorem trunc_shiftLeft_eight {w : Width} {acc : Word} (h : acc.toNat < 2 ^ w.bits) :
    trunc w (acc <<< 8) = (acc ^^^ topByte w (topOf w acc)) <<< 8 := by
  have hsplit : acc <<< 8 = (acc ^^^ topByte w (topOf w acc)) <<< 8 ^^^ topByte w (topOf w acc) <<< 8 := by
    rw [← BitVec.shiftLeft_xor_distrib, BitVec.xor_assoc, BitVec.xor_self, BitVec.xor_zero]
  rw [hsplit, trunc_xor, trunc_topByte_shiftLeft_eight, BitVec.xor_zero, ← div8_of_room (xor_topByte_topOf_lt h) 0,
    trunc_of_lt (div8_lt _ _ _)]

/-- The index of the LUT path as R167 writes it: for a register below 2^W it needs no cut to a byte. -/
theorem zextByte_lutIndex {w : Width} {acc : Word} (h : acc.toNat < 2 ^ w.bits) (temp : Byte) :
    zextByte (lutIndex w acc temp) = (acc >>> (w.bits - 8)) ^^^ zextByte temp := by
  apply BitVec.eq_of_getLsbD_eq
  intro k hk
  rw [lutIndex_eq_topOf_xor, zextByte, zextByte, BitVec.getLsbD_setWidth, BitVec.getLsbD_xor, BitVec.getLsbD_xor,
    getLsbD_topOf, BitVec.getLsbD_ushiftRight, BitVec.getLsbD_setWidth]
  by_cases h8 : k < 8
  · simp [h8, hk]
  · simp [h8, (lt_two_pow_iff w.bits acc).mp h (w.bits - 8 + k) (by omega)]

theorem toNat_zextByte (b : Byte) : (zextByte b).toNat = b.toNat := by
  rw [zextByte, BitVec.toNat_setWidth_of_le (by decide)]

theorem toNat_lutIndex {w : Width} {acc : Word} (h : acc.toNat < 2 ^ w.bits) (temp : Byte) :
    (lutIndex w acc temp).toNat = ((acc >>> (w.bits - 8)) ^^^ zextByte temp).toNat := by
  rw [← zextByte_lutIndex h, toNat_zextByte]

/-! ### The two update paths (R166, R167) -/

/-- R170: the register met by the byte is the index byte at the top and the rest below it. Div8 of the first is the entry of
the table, and of the second the shift that the LUT path makes. -/
theorem lutUpdate_buildEntry {w : Width} {acc : Word} (h : acc.toNat < 2 ^ w.bits) (poly : Word) (temp : Byte) :
    lutUpdate w acc (buildEntry w poly (lutIndex w acc temp)) = directUpdate w poly acc temp := by
  have hsplit : acc ^^^ topByte w temp =
      (acc ^^^ topByte w (topOf w acc)) ^^^ topByte w (lutIndex w acc temp) := by
    rw [lutIndex_eq_topOf_xor, topByte_xor, xor_xor_xor_cancel]
  symm
  calc directUpdate w poly acc temp
      = div8 w poly (acc ^^^ topByte w temp) := by rw [directUpdate, trunc_of_lt (xor_lt h (topByte_lt w temp))]
    _ = (acc ^^^ topByte w (topOf w acc)) <<< 8 ^^^ buildEntry w poly (lutIndex w acc temp) := by
      rw [hsplit, div8_xor, div8_of_room (xor_topByte_topOf_lt h), buildEntry_eq]; rfl
    _ = lutUpdate w acc (buildEntry w poly (lutIndex w acc temp)) := by
      rw [lutUpdate, trunc_xor, trunc_shiftLeft_eight h, trunc_of_lt (buildEntry_lt _ _ _)]

/-- A byte of the pure function is a direct update: the table RROM holds what the loop of R120 computes. -/
theorem checksumByte_eq_directUpdate (w : Width) (poly : Word) (refin : Bool) (acc : Word) (b : Byte) :
    checksumByte w poly refin acc b = directUpdate w poly acc (inputByte refin b) := by
  cases refin with
  | false => rfl
  | true => simp only [checksumByte, directUpdate, inputByte, topByte, zextByte_reflectByte, if_true]

/-! ### The commands outside FAULTED mode -/

/-- R162: outside a session START opens one. -/
theorem exec_start_of_idle {s : State} (hf : s.faulted = false) (hc : s.configured = true) (ha : s.active = false) :
    exec .start s = .next (openSession s) := by simp [exec_start, hf, hc, ha]

theorem exec_start_of_not_configured {s : State} (hf : s.faulted = false) (hc : s.configured = false) :
    exec .start s = .next (s.withError 0x03 (encode .start)) := by
  rw [exec_start, if_neg (by simp [hf]), if_pos (by simp [hc])]
  rfl

theorem exec_start_of_active {s : State} (hf : s.faulted = false) (hc : s.configured = true) (ha : s.active = true) :
    exec .start s = .next (s.withError 0x05 (encode .start)) := by
  rw [exec_start, if_neg (by simp [hf]), if_neg (by simp [hc]), if_pos ha]
  rfl

/-- R168: in a session DATA replaces ACC by its update, where the path finds one. -/
theorem exec_data_of_update {s : State} {b : Byte} {a v : Word} (hf : s.faulted = false) (hc : s.configured = true)
    (ha : s.active = true) (hacc : s.acc = some a) (hv : updatedAcc s a (inputByte s.refin b) = some v) :
    exec (.data b) s = .next { s with acc := some v } :=
  (exec_data_of_active hf hc ha).trans (feedByte_next_iff.mpr ⟨a, v, hacc, hv, rfl⟩)

theorem exec_data_of_not_configured {s : State} (hf : s.faulted = false) (hc : s.configured = false) (b : Byte) :
    exec (.data b) s = .next (s.withError 0x03 (encode (.data b))) := by
  rw [exec_data, if_neg (by simp [hf]), if_pos (by simp [hc])]
  rfl

theorem exec_data_of_idle {s : State} (hf : s.faulted = false) (hc : s.configured = true) (ha : s.active = false)
    (b : Byte) : exec (.data b) s = .next (s.withError 0x04 (encode (.data b))) := by
  rw [exec_data, if_neg (by simp [hf]), if_neg (by simp [hc]), if_pos (by simp [ha])]
  rfl

/-- R172: in a session FINISH emits the checksum and closes the session. -/
theorem exec_finish_of_acc {s : State} {a : Word} (hf : s.faulted = false) (hc : s.configured = true)
    (ha : s.active = true) (hacc : s.acc = some a) :
    exec .finish s = .next { s with
      acc := none, active := false, waiting := s.waiting + 1,
      resp := s.resp ++ [trunc s.width (outputValue s.width s.refout a ^^^ s.xorout)] } :=
  (exec_finish_of_active hf hc ha).trans (closeSession_next_iff.mpr ⟨a, hacc, rfl⟩)

theorem exec_finish_of_not_configured {s : State} (hf : s.faulted = false) (hc : s.configured = false) :
    exec .finish s = .next (s.withError 0x03 (encode .finish)) := by
  rw [exec_finish, if_neg (by simp [hf]), if_pos (by simp [hc])]
  rfl

theorem exec_finish_of_idle {s : State} (hf : s.faulted = false) (hc : s.configured = true) (ha : s.active = false) :
    exec .finish s = .next (s.withError 0x04 (encode .finish)) := by
  rw [exec_finish, if_neg (by simp [hf]), if_neg (by simp [hc]), if_pos (by simp [ha])]
  rfl

/-- R72, format Z: cw[55:0] is reserved. -/
theorem and_bareReserved_eq_zero_iff {cw : CmdWord} (ho : opcField cw = 0x10 ∨ opcField cw = 0x12) :
    cw &&& reservedBits (opcField cw) = 0#64 ↔ cw.extractLsb' 0 56 = 0#56 := by
  have hmask : reservedBits (opcField cw) = fieldMask 0 56 := by
    rcases ho with ho | ho <;> rw [ho] <;> decide
  rw [hmask, and_fieldMask_eq_zero_iff (by omega)]

/-- R77 for START and FINISH. -/
theorem acceptWord_of_bareReserved {cw : CmdWord} {s : State} (hf : s.faulted = false)
    (ho : opcField cw = 0x10 ∨ opcField cw = 0x12) (hfield : cw.extractLsb' 0 56 ≠ 0) :
    acceptWord cw s = .next (s.withError 0x02 cw) := by
  have hdef : opcField cw ∈ definedOpcodes := by rcases ho with ho | ho <;> rw [ho] <;> decide
  exact reservedBitsAreNeverIgnored cw s hf hdef (mt (and_bareReserved_eq_zero_iff ho).mp hfield)

/-! ### Runs of commands -/

/-- A command's word decodes to it. -/
theorem decode_encode (i : Instr) : decode (encode i) = .ok i := by
  have hbyte : ∀ b : Byte, (b.setWidth 32).setWidth 8 = b := fun b => BitVec.setWidth_setWidth_of_le b (by decide)
  have hupper := Sys2Proof.Laws.EncodeInRow.byte_below
  cases i with
  | setpoly v => exact decode_fourFields 0x01 0 0 v
  | setinit v => exact decode_fourFields 0x02 0 0 v
  | setxor v => exact decode_fourFields 0x03 0 0 v
  | configure ri ro ul => cases ri <;> cases ro <;> cases ul <;> decide
  | start => decide
  | data b => exact (decode_fourFields 0x11 0 0 (b.setWidth 32)).trans (by simp [hbyte, hupper])
  | finish => decide
  | readcfg b => exact (decode_fourFields 0x20 0 0 (b.setWidth 32)).trans (by simp [hbyte, hupper])
  | readlut b => exact (decode_fourFields 0x21 0 0 (b.setWidth 32)).trans (by simp [hbyte, hupper])
  | reflect bm v => cases bm <;> exact decode_fourFields 0x22 0 _ v

/-- The run of a list goes on from the next state of its first command. -/
theorem runCommands_cons {i : Instr} {is : List Instr} {s u : State} (h : exec i (responsesTaken s) = .next u) :
    runCommands (i :: is) s = runCommands is u := by
  rw [runCommands, List.map_cons, acceptWords, acceptWord_of_decode (decode_encode i), h]
  rfl

/-- The run of two lists goes on from the next state of the first. -/
theorem runCommands_append {is js : List Instr} {s u : State} (h : runCommands is s = .next u) :
    runCommands (is ++ js) s = runCommands js u := by
  rw [runCommands] at h
  rw [runCommands, List.map_append, acceptWords_append, h]
  rfl

theorem responsesTaken_of_none_waiting {s : State} (h : s.waiting = 0) : responsesTaken s = s := by
  rw [responsesTaken, ← h]

/-! ### Constructions (R80) -/

/-- The two modes that accept a construction (R34, R107). -/
theorem live_and_idle_of_mode {s : State} (hm : s.mode = .unconfigured ∨ s.mode = .ready) :
    s.faulted = false ∧ s.active = false := by
  rcases hm with hm | hm
  · obtain ⟨hf, ha, -⟩ := mode_unconfigured_iff.mp hm
    exact ⟨hf, ha⟩
  · obtain ⟨hf, ha, -⟩ := mode_ready_iff.mp hm
    exact ⟨hf, ha⟩

/-- The state after the three staging commands, the waiting response taken. -/
def stage (p i x : Word) (s : State) : State := { responsesTaken s with polyS := p, initS := i, xorS := x }

/-- R80, R105. Staging and the taking of a response keep the flags, so each command finds the premises of the first. -/
theorem runCommands_configCommands {s : State} (hf : s.faulted = false) (ha : s.active = false) (p i x : Word)
    (ri ro ul : Bool) :
    runCommands (configCommands p i x (.configure ri ro ul)) s = .next (commit ri ro ul (stage p i x s)) := by
  calc runCommands (configCommands p i x (.configure ri ro ul)) s
      = runCommands [.setinit i, .setxor x, .configure ri ro ul] { responsesTaken s with polyS := p } :=
        runCommands_cons (exec_setpoly_of_live (by exact hf) p)
    _ = runCommands [.setxor x, .configure ri ro ul] { responsesTaken s with polyS := p, initS := i } :=
        runCommands_cons (exec_setinit_of_live (by exact hf) i)
    _ = runCommands [.configure ri ro ul] (stage p i x s) := runCommands_cons (exec_setxor_of_live (by exact hf) x)
    _ = .next (commit ri ro ul (stage p i x s)) :=
        runCommands_cons (exec_configure_of_idle (by exact hf) (by exact ha) ri ro ul)

/-! ### Sessions (R160) -/

/-- Where the LUT path is selected, the table is that of the committed polynomial. -/
def State.TableOfPoly (s : State) : Prop :=
  s.useLut = true → ∀ k, lutAt s.lut k = some (buildEntry s.width s.poly k)

theorem tableOfPoly_commit (ri ro ul : Bool) (s : State) : (commit ri ro ul s).TableOfPoly := by
  intro hul k
  rw [commit_useLut] at hul
  rw [lutAt_commit, if_pos hul]
  rfl

/-- A session is open with the value `a` in ACC, and a DATA finds what its path reads. -/
structure State.Session (s : State) (a : Word) : Prop where
  live : s.faulted = false
  configured : s.configured = true
  active : s.active = true
  acc_eq : s.acc = some a
  acc_lt : a.toNat < 2 ^ s.width.bits
  table : s.TableOfPoly

/-- R170: on either path the new value of ACC is that of the direct one. -/
theorem updatedAcc_eq_directUpdate {s : State} {a : Word} (ht : s.TableOfPoly) (ha : a.toNat < 2 ^ s.width.bits)
    (temp : Byte) : updatedAcc s a temp = some (directUpdate s.width s.poly a temp) := by
  rcases bool_cases s.useLut with hul | hul
  · rw [updatedAcc_lut hul (ht hul _), lutUpdate_buildEntry ha]
  · exact updatedAcc_direct hul a temp

/-- R168, R177: a DATA in a session is one byte of the pure function. -/
theorem exec_data_of_session {s : State} {a : Word} (h : s.Session a) (b : Byte) :
    exec (.data b) s = .next { s with acc := some (checksumByte s.width s.poly s.refin a b) } := by
  rw [checksumByte_eq_directUpdate]
  exact exec_data_of_update h.live h.configured h.active h.acc_eq (updatedAcc_eq_directUpdate h.table h.acc_lt _)

/-- The session goes on with the new value. -/
theorem State.Session.next {s : State} {a : Word} (h : s.Session a) (b : Byte) :
    State.Session { s with acc := some (checksumByte s.width s.poly s.refin a b) }
      (checksumByte s.width s.poly s.refin a b) :=
  { h with acc_eq := rfl, acc_lt := div8_lt _ _ _ }

/-- START in a run, from READY. -/
theorem runCommands_start {s : State} (hm : s.mode = .ready) (is : List Instr) :
    runCommands (.start :: is) s = runCommands is (openSession (responsesTaken s)) := by
  obtain ⟨hf, ha, hc⟩ := mode_ready_iff.mp hm
  exact runCommands_cons (exec_start_of_idle (s := responsesTaken s) hf hc ha)

/-- FINISH as the last command of a run. -/
theorem runCommands_finish {s : State} {a : Word} (hf : s.faulted = false) (hc : s.configured = true)
    (ha : s.active = true) (hacc : s.acc = some a) :
    runCommands [.finish] s = .next { s with
      acc := none, active := false, waiting := 1,
      resp := s.resp ++ [trunc s.width (outputValue s.width s.refout a ^^^ s.xorout)] } :=
  runCommands_cons (exec_finish_of_acc (s := responsesTaken s) hf hc ha hacc)

/-- By induction over the message: the DATA of its bytes fold them into ACC. -/
theorem runCommands_data {s : State} {a : Word} (h : s.Session a) (hw : s.waiting = 0) (bytes : List Byte) :
    runCommands (bytes.map .data) s =
      .next { s with acc := some (checksumAcc s.width s.poly a s.refin bytes) } := by
  induction bytes generalizing s a with
  | nil => rw [checksumAcc, List.foldl_nil, ← h.acc_eq]; rfl
  | cons b rest ih =>
    have hdata : exec (.data b) (responsesTaken s) =
        .next { s with acc := some (checksumByte s.width s.poly s.refin a b) } := by
      rw [responsesTaken_of_none_waiting hw, exec_data_of_session h]
    exact (runCommands_cons hdata).trans (ih (h.next b) hw)

/-- R160, R177: from READY a session over a message emits its checksum, on either path. -/
theorem runCommands_calcCommands {s : State} (hm : s.mode = .ready) (hi : s.init.toNat < 2 ^ s.width.bits)
    (ht : s.TableOfPoly) (bytes : List Byte) :
    runCommands (calcCommands bytes) s =
      .next { s with acc := none, active := false, waiting := 1, resp := s.resp ++ [s.checksum bytes] } := by
  obtain ⟨hf, -, hc⟩ := mode_ready_iff.mp hm
  have hopen : (openSession (responsesTaken s)).Session s.init := ⟨hf, hc, rfl, rfl, hi, ht⟩
  rw [calcCommands, runCommands_start hm, runCommands_append (runCommands_data hopen rfl bytes)]
  exact runCommands_finish hf hc rfl rfl

/-! ### O29, O30, O33, O34, O35 -/

/-- Settles O29: the effect, and the three errors in R163's order. -/
theorem startLoadsTheCommittedInit : Obligations.StartLoadsTheCommittedInit := fun s hf =>
  ⟨fun hc ha => ⟨openSession s, exec_start_of_idle hf hc ha, rfl, mode_active_iff.mpr ⟨hf, rfl⟩⟩,
    fun _ ho hfield => acceptWord_of_bareReserved hf (.inl ho) hfield,
    fun hc => exec_start_of_not_configured hf hc, fun hc ha => exec_start_of_active hf hc ha⟩

/-- Settles O30: each path through its own update; the index of the LUT path is the only byte with R167's value. -/
theorem dataUpdatesTheRegister : Obligations.DataUpdatesTheRegister := by
  refine fun s b hf => ⟨fun a temp hc ha hacc hlt htemp => ⟨fun hul => ?direct, fun k e hul hk he => ?lut⟩,
    fun cw ho hfield => ?reserved, fun hc => exec_data_of_not_configured hf hc b,
    fun hc ha => exec_data_of_idle hf hc ha b⟩
  case direct =>
    subst htemp
    exact exec_data_of_update hf hc ha hacc (updatedAcc_direct hul a _)
  case lut =>
    subst htemp
    rw [← toNat_lutIndex hlt] at hk
    rw [BitVec.eq_of_toNat_eq hk] at he
    exact exec_data_of_update hf hc ha hacc (updatedAcc_lut hul he)
  case reserved =>
    have hdef : opcField cw ∈ definedOpcodes := by rw [ho]; decide
    exact reservedBitsAreNeverIgnored cw s hf hdef (mt (and_byteReserved_eq_zero_iff (.inl ho)).mp hfield)

/-- Settles O33: byte by byte from the split of the register; and a whole session emits the checksum of the committed
parameters, which a commit sets alike for either path. -/
theorem lutPathEqualsDirectPath : Obligations.LutPathEqualsDirectPath := by
  refine ⟨fun w poly acc temp _ hacc =>
    ⟨lutIndex w acc temp, toNat_lutIndex hacc temp, lutUpdate_buildEntry hacc poly temp⟩,
    fun s p i x ri ro bytes hm => ?session⟩
  case session =>
    obtain ⟨hf, ha⟩ := live_and_idle_of_mode hm
    have hrun (ul : Bool) := (runCommands_append (runCommands_configCommands hf ha p i x ri ro ul)).trans
      (runCommands_calcCommands (mode_commit (s := stage p i x s) hf ha ri ro ul) (trunc_lt _ _)
        (tableOfPoly_commit ri ro ul _) bytes)
    exact ⟨_, _, (commit ri ro false (stage p i x s)).checksum bytes, hrun true, hrun false, rfl, rfl⟩

/-- Settles O34: the effect, and the three errors in R173's order. -/
theorem finishEmitsAndClosesTheSession : Obligations.FinishEmitsAndClosesTheSession := fun _ hf =>
  ⟨fun _ hc ha hacc => ⟨_, exec_finish_of_acc hf hc ha hacc, rfl, rfl, mode_ready_iff.mpr ⟨hf, rfl, hc⟩⟩,
    fun _ ho hfield => acceptWord_of_bareReserved hf (.inr ho) hfield,
    fun hc => exec_finish_of_not_configured hf hc, fun hc ha => exec_finish_of_idle hf hc ha⟩

/-- Settles O35: FINISH meets the ACC that START has just loaded. -/
theorem emptyMessageReturnsInit : Obligations.EmptyMessageReturnsInit := by
  intro s hm
  obtain ⟨hf, ha, hc⟩ := mode_ready_iff.mp hm
  exact ⟨_, (runCommands_start hm [.finish]).trans (runCommands_finish hf hc rfl rfl), rfl, by simp [ha]⟩

end Sys2Proof.Machine
end

