-- ==== Sys2Proof/Proofs/Diagnostics.lean ====
section
/-! READCFG and the words it reads (spec/44_diagnostics.md R191 to R194), and FAULTED mode, where READCFG is the one command
still executed (spec/60_exceptions.md R221). -/

namespace Sys2Proof.Machine

/-! ### The FLAGS and STATUS words, bit by bit (R191, R192) -/

theorem getLsbD_flagBit {k : Nat} (hk : k < 32) (b : Bool) (j : Nat) :
    (flagBit b k).getLsbD j = (b && decide (j = k)) := by
  cases b with
  | false => simp [flagBit]
  | true =>
    have hbit : (1 : Word) <<< k = BitVec.twoPow 32 k := (BitVec.twoPow_eq 32 k).symm
    rw [flagBit, if_pos rfl, hbit, BitVec.getLsbD_twoPow]
    simp [hk, eq_comm]

theorem getLsbD_flagsWord (s : State) (j : Nat) :
    (flagsWord s).getLsbD j =
      (s.refin && decide (j = 0) || s.refout && decide (j = 1) || s.useLut && decide (j = 2)) := by
  simp [flagsWord, BitVec.getLsbD_or, getLsbD_flagBit]

theorem getLsbD_statusWord (s : State) (j : Nat) :
    (statusWord s).getLsbD j =
      (s.configured && decide (j = 0) || s.active && decide (j = 1) || s.lutValid && decide (j = 2) ||
        s.faulted && decide (j = 3) || decide (8 ≤ j) && s.errCode.getLsbD (j - 8)) := by
  have hcode : (zextByte s.errCode <<< 8).getLsbD j = (decide (8 ≤ j) && s.errCode.getLsbD (j - 8)) := by
    simp only [zextByte, BitVec.getLsbD_shiftLeft, BitVec.getLsbD_setWidth]
    grind
  simp [statusWord, BitVec.getLsbD_or, getLsbD_flagBit, hcode]

theorem statusWord_configured (s : State) : (statusWord s).getLsbD 0 = s.configured := by
  rw [getLsbD_statusWord]
  simp

theorem statusWord_active (s : State) : (statusWord s).getLsbD 1 = s.active := by
  rw [getLsbD_statusWord]
  simp

theorem statusWord_lutValid (s : State) : (statusWord s).getLsbD 2 = s.lutValid := by
  rw [getLsbD_statusWord]
  simp

theorem statusWord_faulted (s : State) : (statusWord s).getLsbD 3 = s.faulted := by
  rw [getLsbD_statusWord]
  simp

/-- R34: three flags determine the mode. -/
theorem mode_congr {s s' : State} (hf : s.faulted = s'.faulted) (ha : s.active = s'.active)
    (hc : s.configured = s'.configured) : s.mode = s'.mode := by simp [State.mode, hf, ha, hc]

/-- A bit of a field is a bit of the word. -/
theorem getLsbD_eq_of_low_field_eq {v v' : Word} {n k : Nat} (h : v.extractLsb' 0 n = v'.extractLsb' 0 n) (hk : k < n) :
    v.getLsbD k = v'.getLsbD k := by
  simpa [hk] using congrArg (BitVec.getLsbD · k) h

/-! ### READCFG (R193) -/

/-- A selector with a word has it in every mode (R194). -/
theorem emits_exec_readcfg {s : State} {sel : Byte} {v : Word} (h : cfgWord s sel = some v) :
    Emits (exec (.readcfg sel) s) s v := by
  rw [exec_readcfg, h]
  exact emits_next_emit v s

/-- R191: the selectors 11 to 255 are reserved. -/
theorem cfgWord_of_reserved {sel : Byte} (h : 10 < sel.toNat) (s : State) : cfgWord s sel = none := by
  rw [← Option.not_isSome_iff_eq_none, cfgWord_isSome_iff]
  omega

theorem exec_readcfg_of_reserved_live {s : State} {sel : Byte} (hf : s.faulted = false) (hsel : 10 < sel.toNat) :
    exec (.readcfg sel) s = .next (s.withError 0x06 (encode (.readcfg sel))) := by
  rw [exec_readcfg, cfgWord_of_reserved hsel]
  exact if_neg (by simp [hf])

theorem exec_readcfg_of_reserved_faulted {s : State} {sel : Byte} (hf : s.faulted = true) (hsel : 10 < sel.toNat) :
    exec (.readcfg sel) s = .next s := by
  rw [exec_readcfg, cfgWord_of_reserved hsel]
  exact if_pos hf

/-- The word of READCFG: its opcode and its selector, with every reserved bit zero. -/
theorem encode_readcfg (sel : Byte) : encode (.readcfg sel) = 0x2000000000000000 ||| sel.setWidth 64 := by
  have hsel : sel.setWidth 64 = (sel.setWidth 32).setWidth 64 := by
    apply BitVec.eq_of_toNat_eq
    simp
  rw [hsel]
  exact (opcode_or_operand 0x20 (sel.setWidth 32)).symm

/-- After reset every selector but that of W reads zero (R191, R240). -/
theorem cfgWord_resetAt (w : Width) {sel : Byte} (hlow : 1 ≤ sel.toNat) (hhigh : sel.toNat ≤ 10) :
    cfgWord (State.resetAt w) sel = some 0 := by
  unfold cfgWord
  interval_cases sel.toNat <;> simp [State.resetAt, flagsWord, statusWord, flagBit, zextByte]

/-- The words of READCFG are those of its row of R74, and the selector is the low byte. -/
theorem decode_readcfg_iff {cw : CmdWord} {sel : Byte} :
    decode cw = .ok (.readcfg sel) ↔
      cw &&& 0xFFFFFFFFFFFFFF00 = 0x2000000000000000 ∧ cw.extractLsb' 0 8 = sel := by
  obtain ⟨hread, hmatch⟩ := row_selects 7 cw
  constructor
  · intro h
    have hrow := hmatch _ rfl h
    have hsame : Instr.readcfg (imm8Field cw) = .readcfg sel := Except.ok.inj ((hread hrow).symm.trans h)
    exact ⟨hrow, Instr.readcfg.inj hsame⟩
  · rintro ⟨hrow, rfl⟩
    exact hread hrow

/-! ### FAULTED mode (R221) -/

/-- Every command but READCFG of a selector with a word is discarded. -/
theorem exec_of_faulted {i : Instr} {s : State} (hf : s.faulted = true)
    (hi : ∀ sel, i = .readcfg sel → 10 < sel.toNat) : exec i s = .next s := by
  cases i with
  | readcfg sel => exact exec_readcfg_of_reserved_faulted hf (hi sel rfl)
  | _ =>
    simp [hf, exec_setpoly, exec_setinit, exec_setxor, exec_configure, exec_start, exec_data, exec_finish, exec_readlut,
      exec_reflect]

/-- A word that is no command is discarded. -/
theorem acceptWord_of_error_faulted {cw : CmdWord} {e : DecodeError} {s : State} (h : decode cw = .error e)
    (hf : s.faulted = true) : acceptWord cw s = .next s := by
  rw [acceptWord_of_error h, raiseError_of_faulted hf]

/-! ### O45, O40, O41 -/

/-- Settles O45: a selector of 0 to 10 has a word, which is emitted; any other word is no command, another command, or a
READCFG of a reserved selector. -/
theorem faultedModeDiscardsAllButReadcfg : Obligations.FaultedModeDiscardsAllButReadcfg := by
  refine fun s cw => ⟨fun _ hrow hsel => ?read, fun hf hother => ?discarded,
    fun hf => ⟨fun i hi => acceptWord_of_decode hi s, fun h => acceptWord_of_error_live h hf,
      fun h => acceptWord_of_error_live h hf⟩⟩
  case read =>
    obtain ⟨v, hv⟩ := Option.isSome_iff_exists.mp ((cfgWord_isSome_iff s _).mpr hsel)
    refine ⟨v, hv, ?_⟩
    rw [acceptWord_of_decode (decode_readcfg_iff.mpr ⟨hrow, rfl⟩)]
    exact emits_exec_readcfg hv
  case discarded =>
    cases hd : decode cw with
    | error e => exact acceptWord_of_error_faulted hd hf
    | ok i =>
      rw [acceptWord_of_decode hd]
      refine exec_of_faulted hf fun sel hi => ?_
      obtain ⟨hrow, rfl⟩ := decode_readcfg_iff.mp (hi ▸ hd)
      exact not_le.mp fun hsel => hother ⟨hrow, hsel⟩

/-- Settles O40: the word of each selector is emitted; a reserved selector has none; a reserved bit is met by the decoder. -/
theorem readcfgReturnsTheSelectedWord : Obligations.ReadcfgReturnsTheSelectedWord := by
  refine ⟨fun s => ⟨emits_exec_readcfg rfl, emits_exec_readcfg rfl, emits_exec_readcfg rfl, emits_exec_readcfg rfl,
    ⟨flagsWord s, emits_exec_readcfg rfl, ?refin, ?refout, ?useLut, ?zeros⟩, emits_exec_readcfg rfl, emits_exec_readcfg rfl,
    emits_exec_readcfg rfl, emits_exec_readcfg rfl, emits_exec_readcfg rfl, emits_exec_readcfg rfl,
    fun sel hsel hf => ?selector, fun cw hf ho hfield => ?reserved⟩,
    fun w sel hlow hhigh => emits_exec_readcfg (cfgWord_resetAt w hlow hhigh)⟩
  case refin | refout | useLut =>
    rw [getLsbD_flagsWord]
    simp
  case zeros =>
    apply BitVec.eq_of_getLsbD_eq
    intro k _
    simp [getLsbD_flagsWord, show 3 + k ≠ 1 by omega, show 3 + k ≠ 2 by omega]
  case selector =>
    rw [← encode_readcfg]
    exact exec_readcfg_of_reserved_live hf hsel
  case reserved =>
    have hdef : opcField cw ∈ definedOpcodes := by rw [ho]; decide
    exact reservedBitsAreNeverIgnored cw s hf hdef (mt (and_byteReserved_eq_zero_iff (.inr (.inl ho))).mp hfield)

/-- Settles O41: each field from the bits of the word, and the mode from the three flags that determine it. -/
theorem statusWordLayout : Obligations.StatusWordLayout := by
  refine ⟨fun s => ⟨statusWord_configured s, statusWord_active s, statusWord_lutValid s, statusWord_faulted s, ?low, ?code,
    ?high⟩, fun s s' h => ?mode⟩
  case low | code | high =>
    apply BitVec.eq_of_getLsbD_eq
    intro k hk
    simp only [BitVec.getLsbD_extractLsb', getLsbD_statusWord]
    grind
  case mode =>
    have hc := getLsbD_eq_of_low_field_eq h (show 0 < 4 by decide)
    have ha := getLsbD_eq_of_low_field_eq h (show 1 < 4 by decide)
    have hf := getLsbD_eq_of_low_field_eq h (show 3 < 4 by decide)
    rw [statusWord_configured, statusWord_configured] at hc
    rw [statusWord_active, statusWord_active] at ha
    rw [statusWord_faulted, statusWord_faulted] at hf
    exact mode_congr hf ha hc

end Sys2Proof.Machine
end

