-- ==== Sys2Proof/Proofs/Exceptions.lean ====
section
/-! The errors of a command (spec/60_exceptions.md R211 to R220): what each cause's condition says of the word and the
state, the one error a word reports, and that a word with no cause completes. -/

namespace Sys2Proof.Machine

/-! ### The commands that can raise a mode error, by their opcodes (R74) -/

/-- R214: the commands that need a configuration. -/
theorem opc_needs_configuration_iff {i : Instr} :
    i.opc ∈ ([0x10, 0x11, 0x12, 0x21] : List Byte) ↔
      i = .start ∨ (∃ b, i = .data b) ∨ i = .finish ∨ ∃ k, i = .readlut k := by cases i <;> simp [Instr.opc]

/-- R215: the commands that need a session. -/
theorem opc_needs_session_iff {i : Instr} :
    i.opc ∈ ([0x11, 0x12] : List Byte) ↔ (∃ b, i = .data b) ∨ i = .finish := by cases i <;> simp [Instr.opc]

/-- R216: the commands that an open session refuses. -/
theorem opc_refused_in_session_iff {i : Instr} :
    i.opc ∈ ([0x10, 0x04] : List Byte) ↔ i = .start ∨ ∃ ri ro ul, i = .configure ri ro ul := by
  cases i <;> simp [Instr.opc]

theorem eq_readcfg_of_opc {i : Instr} (h : i.opc = 0x20) : ∃ sel, i = .readcfg sel := by
  cases i with
  | readcfg sel => exact ⟨sel, rfl⟩
  | _ => exact absurd h (by simp [Instr.opc])

theorem eq_readlut_of_opc {i : Instr} (h : i.opc = 0x21) : ∃ k, i = .readlut k := by
  cases i with
  | readlut k => exact ⟨k, rfl⟩
  | _ => exact absurd h (by simp [Instr.opc])

/-! ### What a condition that does not hold says (R212 to R218) -/

/-- R75: with neither error of the decoder, the word is a command's. -/
theorem exists_command_of_not_holds {cw : CmdWord} {s : State} (hill : ¬ ErrorCode.illegalOpcode.holds cw s)
    (hres : ¬ ErrorCode.reservedNonzero.holds cw s) :
    ∃ i : Instr, decode cw = .ok i ∧ i.opc = opcField cw := by
  have hdef : opcField cw ∈ definedOpcodes := not_not.mp hill
  have hbits : cw &&& reservedBits (opcField cw) = 0 := by_contra fun hne => hres ⟨hdef, hne⟩
  obtain ⟨-, -, hcommand⟩ := everyWordIsACommandOrAnError cw
  obtain ⟨i, hi, hopc, -⟩ := hcommand hdef hbits
  exact ⟨i, hi, hopc⟩

theorem configured_of_not_holds {cw : CmdWord} {s : State} (h : ¬ ErrorCode.notConfigured.holds cw s)
    (ho : opcField cw ∈ ([0x10, 0x11, 0x12, 0x21] : List Byte)) : s.configured = true :=
  Bool.eq_true_of_not_eq_false fun hc => h ⟨ho, hc⟩

theorem active_of_not_holds {cw : CmdWord} {s : State} (h : ¬ ErrorCode.noSession.holds cw s)
    (ho : opcField cw ∈ ([0x11, 0x12] : List Byte)) : s.active = true :=
  Bool.eq_true_of_not_eq_false fun ha => h ⟨ho, ha⟩

theorem idle_of_not_holds {cw : CmdWord} {s : State} (h : ¬ ErrorCode.sessionActive.holds cw s)
    (ho : opcField cw ∈ ([0x10, 0x04] : List Byte)) : s.active = false :=
  Bool.eq_false_of_not_eq_true fun ha => h ⟨ho, ha⟩

theorem lutValid_of_not_holds {cw : CmdWord} {s : State} (h : ¬ ErrorCode.noTable.holds cw s)
    (ho : opcField cw = 0x21) : s.lutValid = true :=
  Bool.eq_true_of_not_eq_false fun hl => h ⟨ho, hl⟩

/-- R217. -/
theorem selector_le_of_not_holds {cw : CmdWord} {s : State} (h : ¬ ErrorCode.badSelector.holds cw s)
    (ho : opcField cw = 0x20) : (cw.extractLsb' 0 8).toNat ≤ 10 :=
  Nat.le_of_lt_succ (not_le.mp fun hsel => h ⟨ho, hsel⟩)

/-! ### The first cause (R219) -/

theorem FirstCause.holds {c : ErrorCode} {cw : CmdWord} {s : State} (h : FirstCause c cw s) : c.holds cw s := by
  obtain ⟨_, _, -, hc, -⟩ := h
  exact hc

/-- No cause that stands before the first one holds. -/
theorem FirstCause.not_holds_of_earlier {c d : ErrorCode} {cw : CmdWord} {s : State} (h : FirstCause c cw s)
    (hd : d ∈ errorPriority.takeWhile (· != c)) : ¬ d.holds cw s := by
  obtain ⟨before, after, horder, -, hnot⟩ := h
  refine hnot d ?_
  rw [horder, List.takeWhile_append] at hd
  split at hd
  · simpa using hd
  · exact (List.takeWhile_sublist _).subset hd

/-- A first cause other than the two of the decoder is that of a command. -/
theorem FirstCause.exists_command {c : ErrorCode} {cw : CmdWord} {s : State} (h : FirstCause c cw s)
    (hill : c ≠ .illegalOpcode) (hres : c ≠ .reservedNonzero) :
    ∃ i : Instr, decode cw = .ok i ∧ i.opc = opcField cw := by
  cases c with
  | illegalOpcode => exact absurd rfl hill
  | reservedNonzero => exact absurd rfl hres
  | _ =>
    exact exists_command_of_not_holds (h.not_holds_of_earlier (by decide)) (h.not_holds_of_earlier (by decide))

/-! ### O43 and O44 -/

/-- R193: READCFG of a selector of 0 to 10 emits a word. -/
theorem exec_readcfg_of_selector {sel : Byte} (hsel : sel.toNat ≤ 10) (s : State) :
    ∃ v, exec (.readcfg sel) s = .next (emit v s) := by
  obtain ⟨v, hv⟩ := Option.isSome_iff_exists.mp ((cfgWord_isSome_iff s sel).mpr hsel)
  exact ⟨v, by rw [exec_readcfg, hv]⟩

/-- R214: a command that needs no configuration raises no NOT_CONFIGURED; the errors it has are SESSION_ACTIVE for
CONFIGURE and BAD_SELECTOR for READCFG. -/
theorem exec_errCode_ne_notConfigured {i : Instr} {s t : State} (hf : s.faulted = false)
    (hi : ¬ (i = .start ∨ (∃ b, i = .data b) ∨ i = .finish ∨ ∃ k, i = .readlut k)) (h : exec i s = .next t)
    (hclean : s.errCode = 0x00) : t.errCode ≠ 0x03 := by
  have hkept : s.errCode ≠ 0x03 := by rw [hclean]; decide
  cases i with
  | start | data _ | finish | readlut _ => exact absurd (by simp) hi
  | setpoly v => rw [exec_setpoly_of_live hf] at h; cases h; exact hkept
  | setinit v => rw [exec_setinit_of_live hf] at h; cases h; exact hkept
  | setxor v => rw [exec_setxor_of_live hf] at h; cases h; exact hkept
  | reflect bm v => rw [exec_reflect_of_live hf] at h; cases h; exact hkept
  | configure ri ro ul =>
    rcases bool_cases s.active with ha | ha
    · rw [exec_configure_of_active hf ha] at h; cases h; exact (by decide : (0x05 : Byte) ≠ 0x03)
    · rw [exec_configure_of_idle hf ha] at h; cases h; exact hkept
  | readcfg sel =>
    rcases Nat.lt_or_ge 10 sel.toNat with hsel | hsel
    · rw [exec_readcfg_of_reserved_live hf hsel] at h; cases h; exact (by decide : (0x06 : Byte) ≠ 0x03)
    · obtain ⟨v, hv⟩ := exec_readcfg_of_selector hsel s
      rw [hv] at h; cases h; exact hkept

/-- Settles O43: the checks of each command that has any, one by one. -/
theorem modeErrorsOfEachCommand : Obligations.ModeErrorsOfEachCommand := by
  refine fun s hf => ⟨?notConfigured, fun i t hi => exec_errCode_ne_notConfigured hf hi, ?noSession,
    exec_start_of_active hf, fun ri ro ul ha => exec_configure_of_active hf ha ri ro ul,
    fun k hc hl => exec_readlut_of_no_table hf hc hl k⟩
  case notConfigured =>
    rintro i (rfl | ⟨b, rfl⟩ | rfl | ⟨k, rfl⟩) hc
    · exact exec_start_of_not_configured hf hc
    · exact exec_data_of_not_configured hf hc b
    · exact exec_finish_of_not_configured hf hc
    · exact exec_readlut_of_not_configured hf hc k
  case noSession =>
    rintro i (⟨b, rfl⟩ | rfl) hc ha
    · exact exec_data_of_idle hf hc ha b
    · exact exec_finish_of_idle hf hc ha

/-- A command that leads from outside FAULTED mode into it enters an error: no effect of a rule sets FAULTED. -/
theorem exec_eq_errorEntry_of_faults {i : Instr} {s t : State} (hf : s.faulted = false) (h : exec i s = .next t)
    (ht : t.faulted = true) : ∃ code, t = errorEntry code (encode i) s := by
  have hlive : ∀ {u : State}, u.faulted = s.faulted → u.faulted ≠ true := fun hu => by simp [hu, hf]
  rcases exec_next_cases h with ⟨hf', -⟩ | ⟨-, herror⟩ | ⟨_, rfl, -⟩ | ⟨-, heffect⟩
  · exact absurd hf' (hlive rfl)
  · exact herror
  · exact absurd ht (hlive rfl)
  · rcases heffect with ⟨_, _, rfl⟩ | ⟨_, _, rfl⟩ | ⟨_, _, rfl⟩ | ⟨_, _, _, _, _, rfl⟩ | ⟨_, _, _, rfl⟩ |
      ⟨_, _, _, _, _, _, _, _, rfl⟩ | ⟨_, _, _, _, _, rfl⟩ <;> exact absurd ht (hlive rfl)

/-- Settles O44: the error entry of a command or of the decoder; the word of the command is the accepted one. -/
theorem errorEntryKeepsEverythingElse : Obligations.ErrorEntryKeepsEverythingElse := by
  intro cw s t hf h ht
  have hentry : ∃ code, t = errorEntry code cw s := by
    rcases acceptWord_next_cases h with ⟨i, hi, hexec⟩ | ⟨hf', -⟩ | ⟨-, herror⟩
    · rw [← encode_of_decode hi]
      exact exec_eq_errorEntry_of_faults hf hexec ht
    · exact absurd hf' (by simp [hf])
    · exact herror
  obtain ⟨code, rfl⟩ := hentry
  exact ⟨code.byte, errorCode_byte_pos code, errorCode_byte_le code, rfl⟩

/-! ### O42 -/

/-- The error a command enters with its own word is entered with the accepted word. -/
theorem acceptWord_of_command_error {i : Instr} {cw : CmdWord} {s : State} {code : Byte} (hi : decode cw = .ok i)
    (h : exec i s = .next (s.withError code (encode i))) : acceptWord cw s = .next (s.withError code cw) := by
  rw [acceptWord_of_decode hi, h, encode_of_decode hi]

/-- R219: the first cause is the error that the word enters. That NOT_CONFIGURED, where it stands earlier, does not hold
supplies the configuration that the command's own error presupposes. -/
theorem acceptWord_of_firstCause {c : ErrorCode} {cw : CmdWord} {s : State} (hf : s.faulted = false)
    (h : FirstCause c cw s) : acceptWord cw s = .next (s.withError c.byte cw) := by
  obtain ⟨hnotConfigured, -, hnoSession, hstart, hconfigure, hreadlut⟩ := modeErrorsOfEachCommand s hf
  have hcause := h.holds
  have hconf (hearlier : ErrorCode.notConfigured ∈ errorPriority.takeWhile (· != c)) :=
    configured_of_not_holds (h.not_holds_of_earlier hearlier)
  cases c with
  | illegalOpcode => exact acceptWord_of_error_live (decode_illegalOpcode_iff.mpr hcause) hf
  | reservedNonzero =>
    obtain ⟨hdef, hbits⟩ := hcause
    exact reservedBitsAreNeverIgnored cw s hf hdef hbits
  | badSelector =>
    obtain ⟨ho, hsel⟩ := hcause
    obtain ⟨i, hi, hopc⟩ := h.exists_command nofun nofun
    obtain ⟨sel, rfl⟩ := eq_readcfg_of_opc (hopc.trans ho)
    obtain ⟨-, rfl⟩ := decode_readcfg_iff.mp hi
    exact acceptWord_of_command_error hi (exec_readcfg_of_reserved_live hf hsel)
  | notConfigured =>
    obtain ⟨ho, hc⟩ := hcause
    obtain ⟨i, hi, hopc⟩ := h.exists_command nofun nofun
    exact acceptWord_of_command_error hi (hnotConfigured i (opc_needs_configuration_iff.mp (hopc ▸ ho)) hc)
  | noSession =>
    obtain ⟨ho, ha⟩ := hcause
    obtain ⟨i, hi, hopc⟩ := h.exists_command nofun nofun
    have hlist : ([0x11, 0x12] : List Byte) ⊆ [0x10, 0x11, 0x12, 0x21] := by simp
    have hc : s.configured = true := hconf (by decide) (hlist ho)
    exact acceptWord_of_command_error hi (hnoSession i (opc_needs_session_iff.mp (hopc ▸ ho)) hc ha)
  | sessionActive =>
    obtain ⟨ho, ha⟩ := hcause
    obtain ⟨i, hi, hopc⟩ := h.exists_command nofun nofun
    rcases opc_refused_in_session_iff.mp (hopc ▸ ho) with rfl | ⟨ri, ro, ul, rfl⟩
    · have hc : s.configured = true := hconf (by decide) (by simp [← hopc, Instr.opc])
      exact acceptWord_of_command_error hi (hstart hc ha)
    · exact acceptWord_of_command_error hi (hconfigure ri ro ul ha)
  | noTable =>
    obtain ⟨ho, hl⟩ := hcause
    obtain ⟨i, hi, hopc⟩ := h.exists_command nofun nofun
    obtain ⟨k, rfl⟩ := eq_readlut_of_opc (hopc.trans ho)
    have hc : s.configured = true := hconf (by decide) (by simp [ho])
    exact acceptWord_of_command_error hi (hreadlut k hc hl)

/-- R35, R105, R167: a session of a state that meets the invariant has a value in ACC and a table for its path. -/
theorem State.Inv.exists_session {s : State} (hinv : s.Inv) (hf : s.faulted = false) (ha : s.active = true) :
    ∃ a, s.Session a := by
  obtain ⟨hc, hacc⟩ := hinv.active_acc ha
  obtain ⟨a, hacc⟩ := Option.ne_none_iff_exists'.mp hacc
  refine ⟨a, hf, hc, ha, hacc, hinv.acc_lt a hacc, fun hul k => ?_⟩
  rw [buildEntry_eq]
  exact hinv.valid_entry (hinv.use_valid hul) k

/-- A word none of whose causes holds completes: it answers a next state with the error record that was there. -/
theorem acceptWord_of_no_cause {cw : CmdWord} {s : State} (hf : s.faulted = false)
    (hnone : ∀ c : ErrorCode, ¬ c.holds cw s) (hinv : s.Inv) :
    ∃ t, acceptWord cw s = .next t ∧ t.faulted = s.faulted ∧ t.errCode = s.errCode ∧ t.errCmd = s.errCmd := by
  obtain ⟨i, hi, hopc⟩ := exists_command_of_not_holds (hnone _) (hnone _)
  have hconf := configured_of_not_holds (hnone .notConfigured)
  have hactive := active_of_not_holds (hnone .noSession)
  have hidle := idle_of_not_holds (hnone .sessionActive)
  rw [acceptWord_of_decode hi]
  rw [← hopc] at hconf hactive hidle
  cases i with
  | setpoly v => exact ⟨_, exec_setpoly_of_live hf v, rfl, rfl, rfl⟩
  | setinit v => exact ⟨_, exec_setinit_of_live hf v, rfl, rfl, rfl⟩
  | setxor v => exact ⟨_, exec_setxor_of_live hf v, rfl, rfl, rfl⟩
  | configure ri ro ul => exact ⟨_, exec_configure_of_idle hf (hidle (by simp [Instr.opc])) ri ro ul, rfl, rfl, rfl⟩
  | start => exact ⟨_, exec_start_of_idle hf (hconf (by simp [Instr.opc])) (hidle (by simp [Instr.opc])), rfl, rfl, rfl⟩
  | data b =>
    obtain ⟨a, hsession⟩ := hinv.exists_session hf (hactive (by simp [Instr.opc]))
    exact ⟨_, exec_data_of_session hsession b, rfl, rfl, rfl⟩
  | finish =>
    obtain ⟨a, hsession⟩ := hinv.exists_session hf (hactive (by simp [Instr.opc]))
    exact ⟨_, exec_finish_of_acc hf hsession.configured hsession.active hsession.acc_eq, rfl, rfl, rfl⟩
  | readcfg sel =>
    obtain ⟨-, rfl⟩ := decode_readcfg_iff.mp hi
    obtain ⟨v, hv⟩ := exec_readcfg_of_selector (selector_le_of_not_holds (hnone .badSelector) hopc.symm) s
    exact ⟨_, hv, rfl, rfl, rfl⟩
  | readlut k =>
    have hl := lutValid_of_not_holds (hnone .noTable) hopc.symm
    exact ⟨_, exec_readlut_of_entry hf (hconf (by simp [Instr.opc])) hl (hinv.valid_entry hl k), rfl, rfl, rfl⟩
  | reflect bm v => exact ⟨_, exec_reflect_of_live hf bm v, rfl, rfl, rfl⟩

/-- Settles O42: the first cause is entered; with no cause the record stays, and the invariant says it was clean; reset
clears it. -/
theorem firstCauseInPriorityOrderIsReported : Obligations.FirstCauseInPriorityOrderIsReported := by
  refine ⟨fun cw s hf => ⟨fun c => acceptWord_of_firstCause hf, fun hnone hinv => ?_⟩,
    fun s => ⟨rfl, rfl, rfl⟩, rfl, rfl, rfl, rfl, rfl, rfl, rfl⟩
  obtain ⟨t, haccept, hfaulted, hcode, hcmd⟩ := acceptWord_of_no_cause hf hnone hinv
  obtain ⟨hclean, hcmdClean⟩ := hinv.clean_record hf
  exact ⟨t, haccept, hfaulted.trans hf, hcode.trans hclean, hcmd.trans hcmdClean⟩

end Sys2Proof.Machine
end

