-- ==== Sys2Proof/Proofs/Codec.lean ====
section
/-! The decoder and the encoder are inverse to each other (spec/30_encoding.md R74 to R77). -/

namespace Sys2Proof.Machine

/-- Settles O1: by the four fields of each command's word. -/
theorem decodeOfEncodeIsTheCommand : Obligations.DecodeOfEncodeIsTheCommand := decode_encode

/-- Settles O2: the reserved bits of a word that decodes are zero, and its other fields are the command's. -/
theorem encodeOfDecodeIsTheWord : Obligations.EncodeOfDecodeIsTheWord := fun _ _ => encode_of_decode

/-- Settles O7: the decoder run on the fifteen words. -/
theorem sampleWordsDecode : Obligations.SampleWordsDecode := by
  unfold Obligations.SampleWordsDecode
  decide

end Sys2Proof.Machine
end

