-- ==== Sys2Proof/Proofs/Polynomials.lean ====
section
/-! The divider as polynomial arithmetic over GF(2) (spec/42_divider_lut.md R141, R144): a word by its coefficients, a round
as multiplication by x modulo the generator, and k rounds as multiplication by x^k. -/

namespace Sys2Proof.Machine

open Polynomial

/-! ### A word as a polynomial (R141) -/

theorem coeff_toPoly (v : Word) (k : Nat) : (toPoly v).coeff k = if v.getLsbD k then 1 else 0 := by
  have hterm : ∀ j, (if v.getLsbD j then (X : (ZMod 2)[X]) ^ j else 0).coeff k =
      if k = j then (if v.getLsbD k then 1 else 0) else 0 := by
    intro j
    by_cases hkj : k = j
    · subst hkj
      split <;> simp
    · split <;> simp [coeff_X_pow, hkj]
  simp only [toPoly, finsetSum_coeff, hterm, Finset.sum_ite_eq, Finset.mem_range]
  split
  · rfl
  · rw [BitVec.getLsbD_of_ge v k (by omega)]
    rfl

/-- XOR is the addition of GF(2), coefficient by coefficient. -/
theorem toPoly_xor (a b : Word) : toPoly (a ^^^ b) = toPoly a + toPoly b := by
  ext k
  rw [coeff_add, coeff_toPoly, coeff_toPoly, coeff_toPoly, BitVec.getLsbD_xor]
  cases a.getLsbD k <;> cases b.getLsbD k <;> decide

theorem degree_toPoly_lt {n : Nat} {v : Word} (h : v.toNat < 2 ^ n) : (toPoly v).degree < n := by
  rw [degree_lt_iff_coeff_zero]
  intro k hk
  rw [coeff_toPoly, (lt_two_pow_iff n v).mp h k hk]
  rfl

theorem monic_generator {w : Width} {poly : Word} (hpoly : poly.toNat < 2 ^ w.bits) : (generator w poly).Monic :=
  monic_X_pow_add (degree_toPoly_lt hpoly)

theorem degree_generator {w : Width} {poly : Word} (hpoly : poly.toNat < 2 ^ w.bits) :
    (generator w poly).degree = w.bits := by
  rw [generator, degree_add_eq_left_of_degree_lt, degree_X_pow]
  rw [degree_X_pow]
  exact degree_toPoly_lt hpoly

/-! ### A round and k rounds modulo the generator (R144) -/

/-- The shift of the register is multiplication by x, but for the top bit, which leaves it. -/
theorem toPoly_mul_X {w : Width} {c : Word} (hc : c.toNat < 2 ^ w.bits) :
    toPoly c * X = toPoly (trunc w (c <<< 1)) + if c.getLsbD (w.bits - 1) then X ^ w.bits else 0 := by
  have hpos := Width.le_bits w
  have hle := Width.bits_le w
  have htop : ∀ k, (if c.getLsbD (w.bits - 1) then (X : (ZMod 2)[X]) ^ w.bits else 0).coeff k =
      if k = w.bits ∧ c.getLsbD (w.bits - 1) then 1 else 0 := by
    intro k
    split <;> simp_all [coeff_X_pow]
  ext k
  rw [coeff_add, htop, coeff_toPoly, getLsbD_trunc, BitVec.getLsbD_shiftLeft]
  cases k with
  | zero => simp [show 0 ≠ w.bits by omega]
  | succ k =>
    rw [coeff_mul_X, coeff_toPoly, Nat.add_sub_cancel]
    rcases lt_trichotomy (k + 1) w.bits with hlt | heq | hgt
    · simp [hlt, hlt.ne, show k + 1 < 32 by omega]
    · simp [heq, show w.bits - 1 = k by omega]
    · simp [hgt.ne', hgt.not_gt, (lt_two_pow_iff w.bits c).mp hc k (by omega)]

/-- In GF(2) the round subtracts the generator exactly when the top bit is set. -/
theorem toPoly_mul_X_eq_divRound_add {w : Width} {poly c : Word} (hpoly : poly.toNat < 2 ^ w.bits)
    (hc : c.toNat < 2 ^ w.bits) :
    toPoly c * X = toPoly (divRound w poly c) + if c.getLsbD (w.bits - 1) then generator w poly else 0 := by
  rw [toPoly_mul_X hc]
  cases htop : c.getLsbD (w.bits - 1) with
  | false => rw [divRound_of_top_clear htop]; rfl
  | true =>
    rw [divRound_of_top_set hpoly htop, toPoly_xor, generator, if_pos rfl, if_pos rfl, add_assoc,
      add_left_comm (toPoly poly), CharTwo.add_self_eq_zero, add_zero]

/-- R144: a round multiplies by x modulo the generator. -/
theorem toPoly_divRound {w : Width} {poly c : Word} (hpoly : poly.toNat < 2 ^ w.bits) (hc : c.toNat < 2 ^ w.bits) :
    toPoly (divRound w poly c) = (toPoly c * X) %ₘ generator w poly := by
  have hmonic := monic_generator hpoly
  have hsmall : (toPoly (divRound w poly c)).degree < (generator w poly).degree := by
    rw [degree_generator hpoly]
    exact degree_toPoly_lt (divRound_lt w poly c)
  rw [toPoly_mul_X_eq_divRound_add hpoly hc, add_modByMonic, (modByMonic_eq_self_iff hmonic).mpr hsmall]
  split
  · rw [modByMonic_self hmonic, add_zero]
  · rw [zero_modByMonic, add_zero]

/-- R144: k rounds multiply by x^k modulo the generator, by induction over the rounds. -/
theorem toPoly_rounds {w : Width} {poly : Word} (hpoly : poly.toNat < 2 ^ w.bits) (k : Nat) {c : Word}
    (hc : c.toNat < 2 ^ w.bits) : toPoly (rounds w poly k c) = (toPoly c * X ^ k) %ₘ generator w poly := by
  have hmonic := monic_generator hpoly
  have hkeep : ∀ p : (ZMod 2)[X], p %ₘ generator w poly %ₘ generator w poly = p %ₘ generator w poly :=
    fun p => (modByMonic_eq_self_iff hmonic).mpr (degree_modByMonic_lt p hmonic)
  induction k generalizing c with
  | zero =>
    have hsmall : (toPoly c).degree < (generator w poly).degree := by
      rw [degree_generator hpoly]
      exact degree_toPoly_lt hc
    rw [rounds, pow_zero, mul_one, (modByMonic_eq_self_iff hmonic).mpr hsmall]
  | succ k ih =>
    rw [rounds, ih (divRound_lt w poly c), toPoly_divRound hpoly hc, mul_modByMonic, hkeep, ← mul_modByMonic,
      mul_assoc, ← pow_succ']

theorem rounds_zero (w : Width) (poly : Word) (k : Nat) : rounds w poly k 0 = 0 := by
  induction k with
  | zero => rfl
  | succ k ih =>
    rw [rounds, divRound_of_top_clear (by simp)]
    simpa using ih

theorem div8_zero (w : Width) (poly : Word) : div8 w poly 0 = 0 := rounds_zero w poly 8

/-! ### O26 -/

/-- Settles O26: linearity by the top bits, the two remainders as one and eight rounds, and the shift where no round meets
a set top bit. -/
theorem dividerIsPolynomialDivision : Obligations.DividerIsPolynomialDivision := by
  refine fun w poly hpoly => ⟨fun a b _ _ => ⟨divRound_xor w poly a b, div8_xor w poly a b⟩, div8_zero w poly,
    fun c hc => ⟨toPoly_divRound hpoly hc, toPoly_rounds hpoly 8 hc⟩, fun c hc => ⟨?truncated, div8_of_room hc poly⟩⟩
  case truncated => rw [← div8_of_room hc poly, trunc_of_lt (div8_lt w poly c)]

end Sys2Proof.Machine
end

