-- ==== Sys2Proof/Proofs/Steps.lean ====
section
/-! One step of the block (spec/70_reset_and_hazards.md R240 to R250): what each move of the host does, what a step keeps,
and how a list of pending words is worked off. -/

namespace Sys2Proof.Machine

/-! ### The moves of the host -/

/-- Everything a step can be when it answers a next state: idling, an accepted word, a word that stays offered while the host
takes a response, a reset, or the host's own taking. -/
theorem step_next_cases {s t : State} (h : step s = .next t) :
    (s.inputs = [] ∧ t = s) ∨
    (∃ cw rest, s.inputs = .command cw :: rest ∧ s.waiting = 0 ∧ acceptWord cw { s with inputs := rest } = .next t) ∨
    (∃ cw rest, s.inputs = .command cw :: rest ∧ s.waiting ≠ 0 ∧ t = takeResponse s) ∨
    (∃ rest, s.inputs = .reset :: rest ∧ t = resetFrom { s with inputs := rest }) ∨
    (∃ rest, s.inputs = .takeResponse :: rest ∧ t = takeResponse { s with inputs := rest }) := by
  rw [step_eq] at h
  rcases hi : s.inputs with _ | ⟨cw | _ | _, rest⟩ <;> rw [hi] at h
  case nil =>
    cases h
    exact .inl ⟨rfl, rfl⟩
  case cons.command =>
    by_cases hw : s.waiting = 0
    · exact .inr (.inl ⟨cw, rest, rfl, hw, (if_pos hw).symm.trans h⟩)
    · cases (if_neg hw).symm.trans h
      exact .inr (.inr (.inl ⟨cw, rest, rfl, hw, rfl⟩))
  case cons.reset =>
    cases h
    exact .inr (.inr (.inr (.inl ⟨rest, rfl, rfl⟩)))
  case cons.takeResponse =>
    cases h
    exact .inr (.inr (.inr (.inr ⟨rest, rfl, rfl⟩)))

theorem step_of_idle {s : State} (h : s.inputs = []) : step s = .next s := by rw [step_eq, h]

theorem step_of_reset {s : State} {rest : List HostInput} (h : s.inputs = .reset :: rest) :
    step s = .next (resetFrom { s with inputs := rest }) := by rw [step_eq, h]

theorem step_of_takeResponse {s : State} {rest : List HostInput} (h : s.inputs = .takeResponse :: rest) :
    step s = .next (takeResponse { s with inputs := rest }) := by rw [step_eq, h]

/-! ### The width -/

theorem exec_width {i : Instr} {s t : State} (h : exec i s = .next t) : t.width = s.width := by
  rcases exec_next_cases h with ⟨_, rfl⟩ | ⟨_, _, rfl⟩ | ⟨_, rfl, _⟩ | ⟨_, h⟩
  · rfl
  · rfl
  · rfl
  · rcases h with ⟨_, _, rfl⟩ | ⟨_, _, rfl⟩ | ⟨_, _, rfl⟩ | ⟨_, _, _, _, _, rfl⟩ | ⟨_, _, _, rfl⟩ |
      ⟨_, _, _, _, _, _, _, _, rfl⟩ | ⟨_, _, _, _, _, rfl⟩ <;> rfl

theorem acceptWord_width {cw : CmdWord} {s t : State} (h : acceptWord cw s = .next t) : t.width = s.width := by
  rcases acceptWord_next_cases h with ⟨_, _, he⟩ | ⟨_, rfl⟩ | ⟨_, _, rfl⟩
  · exact exec_width he
  · rfl
  · rfl

theorem step_width {s t : State} (h : step s = .next t) : t.width = s.width := by
  rcases step_next_cases h with ⟨-, rfl⟩ | ⟨_, rest, -, -, h⟩ | ⟨_, _, -, -, rfl⟩ | ⟨_, -, rfl⟩ | ⟨_, -, rfl⟩
  · rfl
  · exact acceptWord_width (s := { s with inputs := rest }) h
  · rfl
  · rfl
  · rfl

theorem ofBits?_bits (w : Width) : Width.ofBits? w.bits = some w := by cases w <;> rfl

theorem ofBits?_of_other {n : Nat} (h8 : n ≠ 8) (h16 : n ≠ 16) (h32 : n ≠ 32) : Width.ofBits? n = none := by
  simp [Width.ofBits?, h8, h16, h32]

/-! ### A command from FAULTED mode -/

/-- R221: discarded, or a READCFG that emits its word. -/
theorem exec_next_of_faulted {i : Instr} {s t : State} (hf : s.faulted = true) (h : exec i s = .next t) :
    t = s ∨ ∃ v, t = emit v s := by
  have hlive : s.faulted ≠ false := by simp [hf]
  rcases exec_next_cases h with ⟨-, rfl⟩ | ⟨hf', -⟩ | ⟨v, rfl, -⟩ | ⟨hf', -⟩
  · exact .inl rfl
  · exact absurd hf' hlive
  · exact .inr ⟨v, rfl⟩
  · exact absurd hf' hlive

theorem acceptWord_next_of_faulted {cw : CmdWord} {s t : State} (hf : s.faulted = true)
    (h : acceptWord cw s = .next t) : t = s ∨ ∃ v, t = emit v s := by
  rcases acceptWord_next_cases h with ⟨i, -, he⟩ | ⟨-, rfl⟩ | ⟨hf', -⟩
  · exact exec_next_of_faulted hf he
  · exact .inl rfl
  · exact absurd hf' (by simp [hf])

/-! ### Pending moves (R63) -/

/-- A result with other moves pending in its next state. -/
def withInputs (q : List HostInput) : Result → Result
  | .next t => .next { t with inputs := q }
  | .fault r => .fault r
  | .refused r => .refused r

theorem withInputs_ite (q : List HostInput) (p : Prop) [Decidable p] (r r' : Result) :
    withInputs q (if p then r else r') = if p then withInputs q r else withInputs q r' :=
  apply_ite (withInputs q) p r r'

theorem feedByte_of_absent {s : State} (h : s.acc = none) (b : Byte) : feedByte b s = .fault .absentAcc := by
  simp [feedByte, h]

theorem feedByte_of_acc {s : State} {a : Word} (h : s.acc = some a) (b : Byte) :
    feedByte b s = (updatedAcc s a (inputByte s.refin b)).elim (.fault .absentLutEntry)
      fun v => .next { s with acc := some v } := by
  simp only [feedByte, h]
  cases updatedAcc s a (inputByte s.refin b) <;> rfl

theorem feedByte_inputs (b : Byte) (s : State) (q : List HostInput) :
    feedByte b { s with inputs := q } = withInputs q (feedByte b s) := by
  rcases Option.eq_none_or_eq_some s.acc with hacc | ⟨a, hacc⟩
  · rw [feedByte_of_absent (by exact hacc), feedByte_of_absent hacc]
    rfl
  · have hupdate : ∀ temp, updatedAcc { s with inputs := q } a temp = updatedAcc s a temp := fun _ => rfl
    rw [feedByte_of_acc (by exact hacc), feedByte_of_acc hacc, hupdate]
    cases updatedAcc s a (inputByte s.refin b) <;> rfl

theorem closeSession_inputs (s : State) (q : List HostInput) :
    closeSession { s with inputs := q } = withInputs q (closeSession s) := by
  unfold closeSession
  cases s.acc <;> rfl

/-- No command reads the pending moves, and each leaves them as they are. -/
theorem exec_inputs (i : Instr) (s : State) (q : List HostInput) :
    exec i { s with inputs := q } = withInputs q (exec i s) := by
  cases i with
  | setpoly v => simp only [exec_setpoly, withInputs_ite]; rfl
  | setinit v => simp only [exec_setinit, withInputs_ite]; rfl
  | setxor v => simp only [exec_setxor, withInputs_ite]; rfl
  | configure ri ro ul => simp only [exec_configure, withInputs_ite]; rfl
  | start => simp only [exec_start, withInputs_ite]; rfl
  | data b => simp only [exec_data, withInputs_ite, feedByte_inputs]; rfl
  | finish => simp only [exec_finish, withInputs_ite, closeSession_inputs]; rfl
  | readcfg sel =>
    have hword : cfgWord { s with inputs := q } sel = cfgWord s sel := rfl
    simp only [exec_readcfg, hword]
    cases cfgWord s sel with
    | none => simp only [withInputs_ite]; rfl
    | some v => rfl
  | readlut k =>
    simp only [exec_readlut, withInputs_ite]
    cases lutAt s.lut k <;> rfl
  | reflect bm v => simp only [exec_reflect, withInputs_ite]; rfl

theorem raiseError_inputs (code : ErrorCode) (cw : CmdWord) (s : State) (q : List HostInput) :
    raiseError code cw { s with inputs := q } = { raiseError code cw s with inputs := q } := by
  rcases bool_cases s.faulted with hf | hf
  · rw [raiseError_of_faulted hf, raiseError_of_faulted (by exact hf)]
  · rw [raiseError_of_live hf, raiseError_of_live (by exact hf)]
    rfl

theorem acceptWord_inputs (cw : CmdWord) (s : State) (q : List HostInput) :
    acceptWord cw { s with inputs := q } = withInputs q (acceptWord cw s) := by
  cases hd : decode cw with
  | ok i => rw [acceptWord_of_decode hd, acceptWord_of_decode hd, exec_inputs]
  | error e => rw [acceptWord_of_error hd, acceptWord_of_error hd, raiseError_inputs]; rfl

/-! ### Working off pending words (R59, R257) -/

theorem run_of_step_next {k : Nat} {s t : State} (h : step s = .next t) :
    Sys2Proof.core.run (k + 1) s = Sys2Proof.core.run k t := by rw [core_run_succ, h]

/-- While a word is offered, as many steps as words wait are the host's takings. -/
theorem run_takings {cw : CmdWord} {rest : List HostInput} (k : Nat) {s : State} (hi : s.inputs = .command cw :: rest) :
    Sys2Proof.core.run (s.waiting + k) s = Sys2Proof.core.run k (responsesTaken s) := by
  generalize hn : s.waiting = n
  induction n generalizing s with
  | zero => rw [Nat.zero_add, responsesTaken_of_none_waiting hn]
  | succ n ih =>
    rw [Nat.succ_add, run_of_step_next (step_of_not_ready hi (by omega)),
      ih (s := takeResponse s) hi (by rw [takeResponse_waiting, hn, Nat.add_sub_cancel])]
    rfl

/-- Then the block accepts the word, and answers for it what it answers with no other move pending. -/
theorem run_pendingWord (k : Nat) (cw : CmdWord) (rest : List HostInput) (s : State) :
    ∃ u : State, Sys2Proof.core.run (s.waiting + k) { s with inputs := .command cw :: rest } = Sys2Proof.core.run k u ∧
      step u = withInputs rest (acceptWord cw (responsesTaken s)) := by
  refine ⟨_, run_takings (s := { s with inputs := .command cw :: rest }) k rfl, ?_⟩
  rw [step_of_ready rfl rfl]
  exact acceptWord_inputs cw (responsesTaken s) rest

theorem run_pendingWord_of_next {cw : CmdWord} {s t : State} (h : acceptWord cw (responsesTaken s) = .next t) (k : Nat)
    (rest : List HostInput) :
    Sys2Proof.core.run (s.waiting + (k + 1)) { s with inputs := .command cw :: rest } =
      Sys2Proof.core.run k { t with inputs := rest } := by
  obtain ⟨u, hrun, hstep⟩ := run_pendingWord (k + 1) cw rest s
  rw [hrun]
  exact run_of_step_next (by rw [hstep, h]; rfl)

theorem run_pendingWord_of_stop {cw : CmdWord} {s : State} {r : Result} (h : acceptWord cw (responsesTaken s) = r)
    (hstop : ∀ t, r ≠ .next t) (k : Nat) (rest : List HostInput) :
    Sys2Proof.core.run (s.waiting + (k + 1)) { s with inputs := .command cw :: rest } = r := by
  obtain ⟨u, hrun, hstep⟩ := run_pendingWord (k + 1) cw rest s
  rw [hrun, core_run_succ, hstep, h]
  cases r with
  | next t => exact absurd rfl (hstop t)
  | fault _ => rfl
  | refused _ => rfl

/-- By induction over the words, for any moves pending after them. -/
theorem run_pendingWords (ws : List CmdWord) (s : State) (rest : List HostInput) :
    ∃ n, ws.length ≤ n ∧ n ≤ s.waiting + 2 * ws.length ∧
      Sys2Proof.core.run n { s with inputs := ws.map .command ++ rest } = withInputs rest (acceptWords ws s) := by
  induction ws generalizing s with
  | nil => exact ⟨0, Nat.zero_le _, Nat.zero_le _, rfl⟩
  | cons cw ws ih =>
    rw [acceptWords, List.length_cons, List.map_cons, List.cons_append]
    cases haccept : acceptWord cw (responsesTaken s) with
    | next t =>
      obtain ⟨n, hlow, hhigh, hn⟩ := ih t
      have hwaiting : t.waiting ≤ 1 := by
        have := acceptWord_waiting haccept
        rw [responsesTaken_waiting] at this
        omega
      exact ⟨s.waiting + (n + 1), by omega, by omega, (run_pendingWord_of_next haccept n _).trans hn⟩
    | fault r | refused r =>
      exact ⟨s.waiting + (ws.length + 1), by omega, by omega,
        run_pendingWord_of_stop haccept (fun _ => by simp) ws.length _⟩

/-! ### O8 to O14, O46, O55 -/

/-- Settles O8: the word is accepted when no response waits, and then the decoder decides; else the response is taken. -/
theorem stepRunsTheDecodedCommand : Obligations.StepRunsTheDecodedCommand := by
  refine fun s cw rest hi => ⟨fun hready => ?accepted, step_of_not_ready hi⟩
  case accepted =>
    rw [step_of_ready hi hready]
    exact ⟨fun i hd => acceptWord_of_decode hd _, fun hd hf => acceptWord_of_error_live hd hf,
      fun hd hf => acceptWord_of_error_live hd hf, fun e hd hf => acceptWord_of_error_faulted hd hf⟩

/-- Settles O9: the two moves that reach no command. -/
theorem idleAndTakingKeepTheEngine : Obligations.IdleAndTakingKeepTheEngine :=
  fun _ => ⟨step_of_idle, fun _ => step_of_takeResponse⟩

/-- Settles O10: the step is `resetFrom`, whose fields are the reset values. -/
theorem resetTakesAnyStateToTheResetState : Obligations.ResetTakesAnyStateToTheResetState := fun _ _ hi =>
  ⟨_, step_of_reset hi, rfl, rfl, rfl, rfl, rfl, rfl, rfl, rfl, rfl, rfl, lutAt_emptyLut, rfl, rfl, rfl, rfl, rfl, rfl,
    rfl, rfl, rfl, rfl, rfl⟩

/-- Settles O11: `resetFrom` reads nothing of a state but its width, its responses and its pending moves. -/
theorem resetForgetsEverythingBefore : Obligations.ResetForgetsEverythingBefore := by
  intro s s' t t' rest hwidth hi hi' h h'
  rw [step_of_reset hi] at h
  rw [step_of_reset hi'] at h'
  cases h
  cases h'
  simp only [resetFrom, hwidth]

/-- Settles O12: by induction over the words, the takings before each counted in. -/
theorem pendingWordsRunInOrder : Obligations.PendingWordsRunInOrder := by
  intro ws s rest
  obtain ⟨n, hlow, hhigh, hn⟩ := run_pendingWords ws s rest
  refine ⟨n, hlow, hhigh, hn.trans ?_⟩
  cases acceptWords ws s <;> rfl

/-- Settles O13: command by command, and the decoder's errors. -/
theorem commandsDoNotTouchPendingMoves : Obligations.CommandsDoNotTouchPendingMoves := by
  intro cw s q
  rw [acceptWord_inputs]
  cases acceptWord cw s <;> rfl

/-- Settles O14: a word is accepted with none waiting and adds at most one; every other move takes one or resets. -/
theorem atMostOneResponseWaits : Obligations.AtMostOneResponseWaits := by
  refine ⟨fun s t hle h => ?bound, fun s cw rest hi hw => ⟨_, step_of_not_ready hi hw, hi, rfl⟩,
    fun s t cw rest hi h hleft => ?leaves, fun s t h hlt => ?goes⟩
  case bound =>
    rcases step_next_cases h with ⟨-, rfl⟩ | ⟨_, _, -, hw, h⟩ | ⟨_, _, -, -, rfl⟩ | ⟨_, -, rfl⟩ | ⟨_, -, rfl⟩
    · exact hle
    · have := acceptWord_waiting h
      simp only [hw] at this
      omega
    · exact (Nat.sub_le _ _).trans hle
    · exact Nat.zero_le _
    · exact (Nat.sub_le _ _).trans hle
  case leaves =>
    by_contra hw
    rw [step_of_not_ready hi hw] at h
    cases h
    exact hleft rfl
  case goes =>
    rcases step_next_cases h with ⟨-, rfl⟩ | ⟨_, _, -, hw, -⟩ | ⟨_, _, -, -, rfl⟩ | ⟨rest, hi, -⟩ | ⟨_, -, rfl⟩
    · exact absurd hlt (lt_irrefl _)
    · exact absurd hlt (by omega)
    · exact .inl ⟨rfl, by rw [takeResponse_waiting] at hlt ⊢; omega⟩
    · exact .inr ⟨rest, hi⟩
    · exact .inl ⟨rfl, by simp only [takeResponse_waiting] at hlt ⊢; omega⟩

/-- Settles O46: from FAULTED mode a word is discarded or read by READCFG, and no other move but reset touches the record. -/
theorem onlyResetLeavesFaultedMode : Obligations.OnlyResetLeavesFaultedMode := by
  intro s t hf h
  rcases step_next_cases h with ⟨-, rfl⟩ | ⟨_, _, -, -, h⟩ | ⟨_, _, -, -, rfl⟩ | ⟨rest, hi, rfl⟩ | ⟨_, -, rfl⟩
  · exact .inl ⟨hf, rfl, rfl⟩
  · rcases acceptWord_next_of_faulted (by exact hf) h with rfl | ⟨v, rfl⟩ <;> exact .inl ⟨hf, rfl, rfl⟩
  · exact .inl ⟨hf, rfl, rfl⟩
  · exact .inr ⟨⟨rest, hi⟩, rfl⟩
  · exact .inl ⟨hf, rfl, rfl⟩

/-- Settles O55: three constructors, and no move writes the width. -/
theorem widthIsOneOfThreeAndNeverChanges : Obligations.WidthIsOneOfThreeAndNeverChanges := by
  refine ⟨fun n => ⟨?bits, ?width⟩, fun n => ofBits?_of_other, fun s t => step_width⟩
  case bits =>
    rintro ⟨w, -, rfl⟩
    exact Width.bits_cases w
  case width =>
    rintro (rfl | rfl | rfl)
    · exact ⟨.w8, ofBits?_bits .w8, rfl⟩
    · exact ⟨.w16, ofBits?_bits .w16, rfl⟩
    · exact ⟨.w32, ofBits?_bits .w32, rfl⟩

end Sys2Proof.Machine
end

