-- ==== Sys2Proof/Proofs/Invariant.lean ====
section
/-! The invariant of spec/10_state.md R35 and the model's additions to it (log entry 9): each operation on the state keeps
it, so every command, every word and every step does. -/

namespace Sys2Proof.Machine

/-! ### The seven items, operation by operation -/

/-- The response channel and the pending moves are no part of the seven items. -/
theorem State.SpecInv.channels {s : State} (h : s.SpecInv) (resp : List Word) (waiting : Nat) (q : List HostInput) :
    State.SpecInv { s with resp := resp, waiting := waiting, inputs := q } := { h with }

/-- Nor are the staging registers. -/
theorem State.SpecInv.staging {s : State} (h : s.SpecInv) (p i x : Word) :
    State.SpecInv { s with polyS := p, initS := i, xorS := x } := { h with }

theorem specInv_resetAt (w : Width) : (State.resetAt w).SpecInv where
  poly_lt := Nat.two_pow_pos _
  init_lt := Nat.two_pow_pos _
  xorout_lt := Nat.two_pow_pos _
  lut_lt i v h := by simp [State.resetAt] at h
  acc_lt := nofun
  valid_iff := by simp [State.resetAt]
  valid_entry := nofun
  valid_use := nofun
  active_acc := nofun
  idle_acc _ := rfl
  clean_record _ := ⟨rfl, rfl⟩
  faulted_record := nofun

theorem specInv_resetFrom (s : State) : (resetFrom s).SpecInv := (specInv_resetAt s.width).channels _ 0 s.inputs

theorem State.SpecInv.errorEntry {s : State} (h : s.SpecInv) (code : ErrorCode) (cw : CmdWord) :
    (errorEntry code cw s).SpecInv :=
  { h with
    clean_record := nofun
    faulted_record := fun _ hzero => by
      have hpos := errorCode_byte_pos code
      rw [show code.byte = 0x00 from hzero] at hpos
      exact absurd hpos (by decide) }

/-- R105: the commit masks what it writes, and writes the table and LUT_VALID together. -/
theorem State.SpecInv.commit {s : State} (h : s.SpecInv) (ha : s.active = false) (ri ro ul : Bool) :
    (commit ri ro ul s).SpecInv :=
  { h with
    poly_lt := trunc_lt _ _
    init_lt := trunc_lt _ _
    xorout_lt := trunc_lt _ _
    lut_lt := by
      intro i v hv
      rw [lutAt_commit] at hv
      cases ul <;> cases hv
      exact buildEntry_lt _ _ _
    valid_iff := by
      simp only [lutAt_commit]
      cases ul <;> simp
    valid_entry := by
      intro hul i
      rw [commit_lutValid] at hul
      rw [lutAt_commit, if_pos hul, buildEntry_eq]
      rfl
    valid_use := fun hul => ⟨rfl, hul⟩
    active_acc := fun ha' => absurd (ha.symm.trans ha') (by decide) }

/-- R162, R168: a session's register holds a value below 2^W. -/
theorem State.SpecInv.withAcc {s : State} (h : s.SpecInv) (hc : s.configured = true) {a : Word}
    (ha : a.toNat < 2 ^ s.width.bits) : State.SpecInv { s with acc := some a, active := true } :=
  { h with
    acc_lt := fun _ hv => by cases hv; exact ha
    active_acc := fun _ => ⟨hc, nofun⟩
    idle_acc := nofun }

/-- R172: with the session closed the register is absent. -/
theorem State.SpecInv.withoutAcc {s : State} (h : s.SpecInv) :
    State.SpecInv { s with acc := none, active := false } :=
  { h with
    acc_lt := nofun
    active_acc := nofun
    idle_acc := fun _ => rfl }

/-! ### The seven items, command by command -/

theorem exec_specInv {i : Instr} {s t : State} (hs : s.SpecInv) (h : exec i s = .next t) : t.SpecInv := by
  rcases exec_next_cases h with ⟨_, rfl⟩ | ⟨_, code, rfl⟩ | ⟨v, rfl, _⟩ | ⟨_, h⟩
  · exact hs
  · exact hs.errorEntry code _
  · exact hs.channels (s.resp ++ [v]) (s.waiting + 1) s.inputs
  · rcases h with ⟨v, _, rfl⟩ | ⟨v, _, rfl⟩ | ⟨v, _, rfl⟩ | ⟨ri, ro, ul, _, ha, rfl⟩ | ⟨_, hc, _, rfl⟩ |
      ⟨_, _, hc, hactive, _, v, _, hv, rfl⟩ | ⟨_, _, _, _, _, rfl⟩
    · exact hs.staging v s.initS s.xorS
    · exact hs.staging s.polyS v s.xorS
    · exact hs.staging s.polyS s.initS v
    · exact hs.commit ha ri ro ul
    · exact hs.withAcc hc hs.init_lt
    · rw [hactive]
      exact hs.withAcc hc (updatedAcc_lt hv)
    · exact hs.withoutAcc.channels _ (s.waiting + 1) s.inputs

theorem acceptWord_specInv {cw : CmdWord} {s t : State} (hs : s.SpecInv) (h : acceptWord cw s = .next t) :
    t.SpecInv := by
  rcases acceptWord_next_cases h with ⟨_, _, he⟩ | ⟨_, rfl⟩ | ⟨_, code, rfl⟩
  · exact exec_specInv hs he
  · exact hs
  · exact hs.errorEntry code cw

theorem step_specInv {s t : State} (hs : s.SpecInv) (h : step s = .next t) : t.SpecInv := by
  rcases step_next_cases h with ⟨-, rfl⟩ | ⟨_, rest, -, -, h⟩ | ⟨_, _, -, -, rfl⟩ | ⟨rest, -, rfl⟩ | ⟨rest, -, rfl⟩
  · exact hs
  · exact acceptWord_specInv (hs.channels s.resp s.waiting rest) h
  · exact hs.channels s.resp (s.waiting - 1) s.inputs
  · exact specInv_resetFrom _
  · exact hs.channels s.resp (s.waiting - 1) rest

/-! ### The additions (log entry 9) -/

/-- USE_LUT after a commit means a valid table, and a table that is not valid has no value (R29, R105). -/
structure State.TableInv (s : State) : Prop where
  use_valid : s.useLut = true → s.lutValid = true
  dropped : s.lutValid = false → ∀ i, lutAt s.lut i = none

theorem State.Inv.tableInv {s : State} (h : s.Inv) : s.TableInv := ⟨h.use_valid, h.dropped⟩

theorem State.TableInv.of_sameConfig {s t : State} (h : s.TableInv) (hsame : s.SameConfig t) : t.TableInv := by
  obtain ⟨-, -, -, -, -, huse, hlut, hvalid⟩ := hsame
  exact ⟨by rw [huse, hvalid]; exact h.use_valid, by rw [hlut, hvalid]; exact h.dropped⟩

theorem tableInv_commit (ri ro ul : Bool) (s : State) : (commit ri ro ul s).TableInv where
  use_valid hul := hul
  dropped hul i := by
    rw [commit_lutValid] at hul
    rw [lutAt_commit, hul]
    rfl

theorem acceptWord_tableInv {cw : CmdWord} {s t : State} (hs : s.TableInv) (h : acceptWord cw s = .next t) :
    t.TableInv := by
  rcases acceptWord_sameConfig_or_configure h with hsame | ⟨⟨ri, ro, ul, hd⟩, hf, ha⟩
  · exact hs.of_sameConfig hsame
  · rw [acceptWord_of_decode hd, exec_configure_of_idle hf ha] at h
    cases h
    exact tableInv_commit ri ro ul s

/-- ERR_CODE is written by the error entry only. -/
theorem exec_errCode {i : Instr} {s t : State} (h : exec i s = .next t) :
    t.errCode = s.errCode ∨ ∃ code : ErrorCode, t.errCode = code.byte := by
  rcases exec_next_cases h with ⟨_, rfl⟩ | ⟨_, code, rfl⟩ | ⟨_, rfl, _⟩ | ⟨_, h⟩
  · exact .inl rfl
  · exact .inr ⟨code, rfl⟩
  · exact .inl rfl
  · rcases h with ⟨_, _, rfl⟩ | ⟨_, _, rfl⟩ | ⟨_, _, rfl⟩ | ⟨_, _, _, _, _, rfl⟩ | ⟨_, _, _, rfl⟩ |
      ⟨_, _, _, _, _, _, _, _, rfl⟩ | ⟨_, _, _, _, _, rfl⟩ <;> exact .inl rfl

theorem acceptWord_code_le {cw : CmdWord} {s t : State} (hs : s.errCode.toNat ≤ 7) (h : acceptWord cw s = .next t) :
    t.errCode.toNat ≤ 7 := by
  rcases acceptWord_next_cases h with ⟨_, _, he⟩ | ⟨_, rfl⟩ | ⟨_, code, rfl⟩
  · rcases exec_errCode he with hcode | ⟨code, hcode⟩ <;> rw [hcode]
    · exact hs
    · exact errorCode_byte_le code
  · exact hs
  · exact errorCode_byte_le code

/-- The responses a command adds are the words it leaves waiting (R36, log entry 3). -/
theorem exec_resp {i : Instr} {s t : State} (h : exec i s = .next t) :
    (t.resp = s.resp ∧ t.waiting = s.waiting) ∨ ∃ v, t.resp = s.resp ++ [v] ∧ t.waiting = s.waiting + 1 := by
  rcases exec_next_cases h with ⟨_, rfl⟩ | ⟨_, _, rfl⟩ | ⟨v, rfl, _⟩ | ⟨_, h⟩
  · exact .inl ⟨rfl, rfl⟩
  · exact .inl ⟨rfl, rfl⟩
  · exact .inr ⟨v, rfl, rfl⟩
  · rcases h with ⟨_, _, rfl⟩ | ⟨_, _, rfl⟩ | ⟨_, _, rfl⟩ | ⟨_, _, _, _, _, rfl⟩ | ⟨_, _, _, rfl⟩ |
      ⟨_, _, _, _, _, _, _, _, rfl⟩ | ⟨_, _, _, _, _, rfl⟩
    · exact .inl ⟨rfl, rfl⟩
    · exact .inl ⟨rfl, rfl⟩
    · exact .inl ⟨rfl, rfl⟩
    · exact .inl ⟨rfl, rfl⟩
    · exact .inl ⟨rfl, rfl⟩
    · exact .inl ⟨rfl, rfl⟩
    · exact .inr ⟨_, rfl, rfl⟩

theorem acceptWord_waiting_le {cw : CmdWord} {s t : State} (hs : s.waiting ≤ s.resp.length)
    (h : acceptWord cw s = .next t) : t.waiting ≤ t.resp.length := by
  rcases acceptWord_next_cases h with ⟨_, _, he⟩ | ⟨_, rfl⟩ | ⟨_, _, rfl⟩
  · rcases exec_resp he with ⟨hresp, hwaiting⟩ | ⟨v, hresp, hwaiting⟩ <;> rw [hresp, hwaiting]
    · exact hs
    · rw [List.length_append]
      exact Nat.succ_le_succ hs
  · exact hs
  · exact hs

/-! ### The whole invariant -/

theorem inv_resetFrom (s : State) : (resetFrom s).Inv where
  toSpecInv := specInv_resetFrom s
  use_valid := nofun
  dropped _ := lutAt_emptyLut
  code_le := Nat.zero_le _
  waiting_le := Nat.zero_le _
  waiting_one := Nat.zero_le _

theorem inv_resetAt (w : Width) : (State.resetAt w).Inv := inv_resetFrom (State.resetAt w)

theorem State.Inv.withInputs {s : State} (h : s.Inv) (q : List HostInput) : State.Inv { s with inputs := q } :=
  { h with toSpecInv := h.toSpecInv.channels s.resp s.waiting q }

theorem State.Inv.takeResponse {s : State} (h : s.Inv) : (takeResponse s).Inv :=
  { h with
    toSpecInv := h.toSpecInv.channels s.resp (s.waiting - 1) s.inputs
    waiting_le := (Nat.sub_le _ _).trans h.waiting_le
    waiting_one := (Nat.sub_le _ _).trans h.waiting_one }

/-- A word accepted with no response waiting. -/
theorem acceptWord_inv {cw : CmdWord} {s t : State} (hs : s.Inv) (hw : s.waiting = 0) (h : acceptWord cw s = .next t) :
    t.Inv where
  toSpecInv := acceptWord_specInv hs.toSpecInv h
  use_valid := (acceptWord_tableInv hs.tableInv h).use_valid
  dropped := (acceptWord_tableInv hs.tableInv h).dropped
  code_le := acceptWord_code_le hs.code_le h
  waiting_le := acceptWord_waiting_le hs.waiting_le h
  waiting_one := by
    have := acceptWord_waiting h
    omega

theorem step_inv {s t : State} (hs : s.Inv) (h : step s = .next t) : t.Inv := by
  rcases step_next_cases h with ⟨-, rfl⟩ | ⟨_, rest, -, hw, h⟩ | ⟨_, _, -, -, rfl⟩ | ⟨rest, -, rfl⟩ | ⟨rest, -, rfl⟩
  · exact hs
  · exact acceptWord_inv (hs.withInputs rest) hw h
  · exact hs.takeResponse
  · exact inv_resetFrom _
  · exact (hs.withInputs rest).takeResponse

/-! ### No absent value is read (R15) -/

theorem exec_readcfg_total (sel : Byte) (s : State) : ∃ t, exec (.readcfg sel) s = .next t := by
  rcases Nat.lt_or_ge 10 sel.toNat with hsel | hsel
  · rcases bool_cases s.faulted with hf | hf
    · exact ⟨_, exec_readcfg_of_reserved_faulted hf hsel⟩
    · exact ⟨_, exec_readcfg_of_reserved_live hf hsel⟩
  · obtain ⟨v, hv⟩ := exec_readcfg_of_selector hsel s
    exact ⟨_, hv⟩

theorem exec_total_of_faulted {s : State} (hf : s.faulted = true) (i : Instr) : ∃ t, exec i s = .next t := by
  cases i with
  | readcfg sel => exact exec_readcfg_total sel s
  | _ => exact ⟨s, exec_of_faulted hf nofun⟩

/-- The checks that come before the read of ACC or of an entry leave only states in which it is present. -/
theorem exec_total_of_live {s : State} (hs : s.Inv) (hf : s.faulted = false) (i : Instr) :
    ∃ t, exec i s = .next t := by
  cases i with
  | setpoly v => exact ⟨_, exec_setpoly_of_live hf v⟩
  | setinit v => exact ⟨_, exec_setinit_of_live hf v⟩
  | setxor v => exact ⟨_, exec_setxor_of_live hf v⟩
  | configure ri ro ul =>
    rcases bool_cases s.active with ha | ha
    · exact ⟨_, exec_configure_of_active hf ha ri ro ul⟩
    · exact ⟨_, exec_configure_of_idle hf ha ri ro ul⟩
  | start =>
    rcases bool_cases s.configured with hc | hc
    · rcases bool_cases s.active with ha | ha
      · exact ⟨_, exec_start_of_active hf hc ha⟩
      · exact ⟨_, exec_start_of_idle hf hc ha⟩
    · exact ⟨_, exec_start_of_not_configured hf hc⟩
  | data b =>
    rcases bool_cases s.configured with hc | hc
    · rcases bool_cases s.active with ha | ha
      · obtain ⟨a, hsession⟩ := hs.exists_session hf ha
        exact ⟨_, exec_data_of_session hsession b⟩
      · exact ⟨_, exec_data_of_idle hf hc ha b⟩
    · exact ⟨_, exec_data_of_not_configured hf hc b⟩
  | finish =>
    rcases bool_cases s.configured with hc | hc
    · rcases bool_cases s.active with ha | ha
      · obtain ⟨a, hsession⟩ := hs.exists_session hf ha
        exact ⟨_, exec_finish_of_acc hf hc ha hsession.acc_eq⟩
      · exact ⟨_, exec_finish_of_idle hf hc ha⟩
    · exact ⟨_, exec_finish_of_not_configured hf hc⟩
  | readcfg sel => exact exec_readcfg_total sel s
  | readlut k =>
    rcases bool_cases s.configured with hc | hc
    · rcases bool_cases s.lutValid with hl | hl
      · exact ⟨_, exec_readlut_of_entry hf hc hl (hs.valid_entry hl k)⟩
      · exact ⟨_, exec_readlut_of_no_table hf hc hl k⟩
    · exact ⟨_, exec_readlut_of_not_configured hf hc k⟩
  | reflect bm v => exact ⟨_, exec_reflect_of_live hf bm v⟩

theorem acceptWord_total {s : State} (hs : s.Inv) (cw : CmdWord) : ∃ t, acceptWord cw s = .next t := by
  cases hd : decode cw with
  | error e => exact ⟨_, acceptWord_of_error hd s⟩
  | ok i =>
    rw [acceptWord_of_decode hd]
    rcases bool_cases s.faulted with hf | hf
    · exact exec_total_of_faulted hf i
    · exact exec_total_of_live hs hf i

theorem step_total {s : State} (hs : s.Inv) : ∃ t, step s = .next t := by
  rcases hi : s.inputs with _ | ⟨cw | _ | _, rest⟩
  case nil => exact ⟨_, step_of_idle hi⟩
  case cons.command =>
    by_cases hw : s.waiting = 0
    · rw [step_of_ready hi hw]
      exact acceptWord_total (hs.withInputs rest) cw
    · exact ⟨_, step_of_not_ready hi hw⟩
  case cons.reset => exact ⟨_, step_of_reset hi⟩
  case cons.takeResponse => exact ⟨_, step_of_takeResponse hi⟩

/-! ### O47 to O49 -/

/-- Settles O47: the reset values, width by width alike. -/
theorem resetMeetsTheInvariant : Obligations.ResetMeetsTheInvariant := ⟨inv_resetAt Config.width, inv_resetAt⟩

/-- Settles O48: the seven items alone are kept by every operation, so by every move of the host. -/
theorem everyStepKeepsTheSpecInvariants : Obligations.EveryStepKeepsTheSpecInvariants :=
  ⟨specInv_resetAt, fun _ _ => step_specInv⟩

/-- Settles O49: every step answers, and what it answers meets the invariant. -/
theorem noStepReadsAnAbsentValue : Obligations.NoStepReadsAnAbsentValue := by
  intro s hs
  obtain ⟨t, ht⟩ := step_total hs
  exact ⟨t, ht, step_inv hs ht⟩

end Sys2Proof.Machine
end

