-- ==== Sys2Proof/Proofs/Frames.lean ====
section
/-! What a command writes, what it emits and which mode it leads to (spec/10_state.md R34, R36, R41), each read off from
what a command can do. -/

namespace Sys2Proof.Machine

/-- The four commands that emit a word when they succeed (R36). -/
def emitsWord : Instr → Prop
  | .finish => True
  | .readcfg _ => True
  | .readlut _ => True
  | .reflect _ _ => True
  | _ => False

theorem emitsWord_iff {i : Instr} :
    emitsWord i ↔ i = .finish ∨ (∃ k, i = .readcfg k) ∨ (∃ k, i = .readlut k) ∨ ∃ bm v, i = .reflect bm v := by
  cases i <;> simp [emitsWord]

/-- A command that answers a state outside FAULTED mode emits exactly when it is one of the four. -/
theorem exec_resp_of_live {i : Instr} {s t : State} (hf : s.faulted = false) (ht : t.faulted = false)
    (h : exec i s = .next t) :
    (emitsWord i ∧ ∃ v, t.resp = s.resp ++ [v] ∧ t.waiting = s.waiting + 1) ∨
    (¬ emitsWord i ∧ t.resp = s.resp ∧ t.waiting = s.waiting) := by
  rcases exec_next_cases h with ⟨hf', -⟩ | ⟨-, _, rfl⟩ | ⟨v, rfl, hi⟩ | ⟨-, h⟩
  · exact absurd hf' (by simp [hf])
  · exact absurd ht (by simp)
  · rcases hi with ⟨_, rfl⟩ | ⟨-, ⟨_, rfl⟩ | ⟨_, _, rfl⟩⟩
    · exact .inl ⟨trivial, v, rfl, rfl⟩
    · exact .inl ⟨trivial, v, rfl, rfl⟩
    · exact .inl ⟨trivial, v, rfl, rfl⟩
  · rcases h with ⟨_, rfl, rfl⟩ | ⟨_, rfl, rfl⟩ | ⟨_, rfl, rfl⟩ | ⟨_, _, _, rfl, _, rfl⟩ | ⟨rfl, _, _, rfl⟩ |
      ⟨_, rfl, _, _, _, _, _, _, rfl⟩ | ⟨rfl, _, _, _, _, rfl⟩
    · exact .inr ⟨id, rfl, rfl⟩
    · exact .inr ⟨id, rfl, rfl⟩
    · exact .inr ⟨id, rfl, rfl⟩
    · exact .inr ⟨id, rfl, rfl⟩
    · exact .inr ⟨id, rfl, rfl⟩
    · exact .inr ⟨id, rfl, rfl⟩
    · exact .inl ⟨trivial, _, rfl, rfl⟩

theorem mode_errorEntry (code : ErrorCode) (cw : CmdWord) (s : State) : (errorEntry code cw s).mode = .faulted :=
  mode_faulted_iff.mpr rfl

/-- A state that is not FAULTED is not in FAULTED mode. -/
theorem mode_ne_faulted {s : State} (hf : s.faulted = false) : s.mode ≠ .faulted := by
  rw [Ne, mode_faulted_iff, hf]
  decide

/-- Outside a session and FAULTED mode, CONFIGURED decides between the two modes left. -/
theorem mode_of_idle {s : State} (hf : s.faulted = false) (ha : s.active = false) :
    s.mode = .unconfigured ∨ s.mode = .ready := by
  rcases bool_cases s.configured with hc | hc
  · exact .inr (mode_ready_iff.mpr ⟨hf, ha, hc⟩)
  · exact .inl (mode_unconfigured_iff.mpr ⟨hf, ha, hc⟩)

/-! ### O50 to O52 -/

/-- Settles O50: discarded, an error entry, an emission, or the effect of the command's own rule. -/
theorem eachCommandWritesOnlyItsState : Obligations.EachCommandWritesOnlyItsState := by
  intro i s t h
  rcases exec_next_cases h with hdiscarded | ⟨hf, code, rfl⟩ | ⟨v, rfl, hi⟩ | ⟨-, h⟩
  · exact .inl hdiscarded
  · exact .inr (.inl ⟨hf, code.byte, rfl⟩)
  · rcases hi with ⟨_, rfl⟩ | ⟨-, ⟨_, rfl⟩ | ⟨_, _, rfl⟩⟩
    · exact .inr (.inr ⟨v, rfl⟩)
    · exact .inr (.inr ⟨v, rfl⟩)
    · exact .inr (.inr ⟨v, rfl⟩)
  · refine .inr (.inr ?_)
    rcases h with ⟨_, rfl, rfl⟩ | ⟨_, rfl, rfl⟩ | ⟨_, rfl, rfl⟩ | ⟨_, _, _, rfl, _, rfl⟩ | ⟨rfl, _, _, rfl⟩ |
      ⟨_, rfl, _, _, _, _, _, _, rfl⟩ | ⟨rfl, _, _, _, _, rfl⟩
    · rfl
    · rfl
    · rfl
    · rfl
    · rfl
    · rfl
    · exact ⟨_, rfl⟩

/-- Settles O51: an error entry keeps RESP; a success emits exactly for the four commands. -/
theorem fourCommandsEmitOneWordEach : Obligations.FourCommandsEmitOneWordEach := by
  intro i s t hf h
  refine ⟨fun ht => ?error, fun ht => ?success⟩
  case error =>
    obtain ⟨_, rfl⟩ := exec_eq_errorEntry_of_faults hf h ht
    rfl
  case success =>
    rw [← emitsWord_iff]
    rcases exec_resp_of_live hf ht h with ⟨hi, hemitted⟩ | ⟨hi, hkept⟩
    · exact ⟨fun _ => hemitted, fun hi' => absurd hi hi'⟩
    · exact ⟨fun hi' => absurd hi' hi, fun _ => hkept⟩

/-- Settles O52: an error leads to FAULTED mode; of the effects only those of CONFIGURE, START and FINISH write one of the
three flags of R34. -/
theorem onlyTheseCommandsChangeTheMode : Obligations.OnlyTheseCommandsChangeTheMode := by
  intro cw s t h
  have herror : ∀ {code : ErrorCode} {cw' : CmdWord}, s.faulted = false →
      s.mode ≠ .faulted ∧ (errorEntry code cw' s).mode = .faulted :=
    fun hf => ⟨mode_ne_faulted hf, mode_errorEntry _ _ s⟩
  rcases acceptWord_next_cases h with ⟨i, hd, he⟩ | ⟨-, rfl⟩ | ⟨hf, _, rfl⟩
  · rcases exec_next_cases he with ⟨-, rfl⟩ | ⟨hf, _, rfl⟩ | ⟨_, rfl, -⟩ | ⟨hf, h⟩
    · exact .inl rfl
    · exact .inr (.inl (herror hf))
    · exact .inl rfl
    · rcases h with ⟨_, -, rfl⟩ | ⟨_, -, rfl⟩ | ⟨_, -, rfl⟩ | ⟨ri, ro, ul, rfl, ha, rfl⟩ | ⟨rfl, hc, ha, rfl⟩ |
        ⟨_, -, _, _, _, _, _, _, rfl⟩ | ⟨rfl, hc, ha, _, _, rfl⟩
      · exact .inl rfl
      · exact .inl rfl
      · exact .inl rfl
      · have hready := mode_commit hf ha ri ro ul
        rcases mode_of_idle hf ha with hm | hm
        · exact .inr (.inr (.inl ⟨hm, hready, ri, ro, ul, hd⟩))
        · exact .inl (hready.trans hm.symm)
      · exact .inr (.inr (.inr (.inl ⟨mode_ready_iff.mpr ⟨hf, ha, hc⟩, mode_active_iff.mpr ⟨hf, rfl⟩, hd⟩)))
      · exact .inl rfl
      · exact .inr (.inr (.inr (.inr ⟨mode_active_iff.mpr ⟨hf, ha⟩, mode_ready_iff.mpr ⟨hf, rfl, hc⟩, hd⟩)))
  · exact .inl rfl
  · exact .inr (.inl (herror hf))

end Sys2Proof.Machine
end

