-- ==== Sys2Proof/Proofs/ReflectLaws.lean ====
section
/-! The reflection of a value, bit by bit, and the laws that follow (spec/41_reflection.md R120, R122). -/

namespace Sys2Proof.Machine

/-! ### The loop of R120 -/

theorem getLsbD_zeroWord (k : Nat) : (0 : Word).getLsbD k = false := BitVec.getLsbD_zero

theorem getLsbD_oneWord (k : Nat) : (1 : Word).getLsbD k = decide (k = 0) := by
  have hone : (1 : Word) = BitVec.twoPow 32 0 := by decide
  rw [hone, BitVec.getLsbD_twoPow]
  simp [eq_comm]

/-- A bit of a value gathered by OR is set when some part sets it. -/
theorem getLsbD_foldl_or (g : Nat → Word) (l : List Nat) (r : Word) (j : Nat) :
    (l.foldl (fun r k => r ||| g k) r).getLsbD j = (r.getLsbD j || l.any fun k => (g k).getLsbD j) := by
  induction l generalizing r with
  | nil => simp
  | cons k l ih => rw [List.foldl_cons, ih, BitVec.getLsbD_or, List.any_cons, Bool.or_assoc]

theorem getLsbD_bitOf_shiftLeft (v : Word) (k : Nat) {m : Nat} (hm : m < 32) (j : Nat) :
    (bitOf v k <<< m).getLsbD j = (decide (j = m) && v.getLsbD k) := by
  cases hbit : v.getLsbD k with
  | false => simp [bitOf, hbit]
  | true =>
    have hone : (1 : Word) <<< m = BitVec.twoPow 32 m := (BitVec.twoPow_eq 32 m).symm
    rw [bitOf, if_pos hbit, hone, BitVec.getLsbD_twoPow]
    simp [hm, eq_comm]

/-- R120: bit j of the reflection is bit n-1-j of the value, and no bit is set from n on. -/
theorem getLsbD_reflect {n : Nat} (hn : n ≤ 32) (v : Word) (j : Nat) :
    (reflect n v).getLsbD j = (decide (j < n) && v.getLsbD (n - 1 - j)) := by
  rw [reflect, getLsbD_foldl_or, getLsbD_zeroWord, Bool.false_or, Bool.eq_iff_iff]
  simp only [List.any_eq_true, List.mem_range, Bool.and_eq_true, decide_eq_true_eq]
  constructor
  · rintro ⟨k, hk, hbit⟩
    rw [getLsbD_bitOf_shiftLeft v k (by omega)] at hbit
    obtain ⟨rfl, hv⟩ : j = n - 1 - k ∧ v.getLsbD k = true := by simpa using hbit
    exact ⟨by omega, by rwa [Nat.sub_sub_self (by omega)]⟩
  · rintro ⟨hj, hv⟩
    refine ⟨n - 1 - j, by omega, ?_⟩
    rw [getLsbD_bitOf_shiftLeft v _ (by omega), hv, Nat.sub_sub_self (by omega)]
    simp

theorem reflect_lt {n : Nat} (hn : n ≤ 32) (v : Word) : (reflect n v).toNat < 2 ^ n := by
  rw [lt_two_pow_iff]
  intro k hk
  rw [getLsbD_reflect hn, decide_eq_false (by omega), Bool.false_and]

/-! ### The laws of R122 -/

theorem reflect_reflect {n : Nat} (hn : n ≤ 32) {a : Word} (ha : a.toNat < 2 ^ n) : reflect n (reflect n a) = a := by
  apply BitVec.eq_of_getLsbD_eq
  intro j _
  rw [getLsbD_reflect hn, getLsbD_reflect hn]
  by_cases hj : j < n
  · rw [Nat.sub_sub_self (by omega)]
    simp [hj, show n - 1 - j < n by omega]
  · rw [(lt_two_pow_iff n a).mp ha j (by omega), decide_eq_false hj, Bool.false_and]

theorem reflect_xor {n : Nat} (hn : n ≤ 32) (a b : Word) : reflect n (a ^^^ b) = reflect n a ^^^ reflect n b := by
  apply BitVec.eq_of_getLsbD_eq
  intro j _
  simp only [BitVec.getLsbD_xor, getLsbD_reflect hn, Bool.and_xor_distrib_left]

theorem reflect_zero {n : Nat} (hn : n ≤ 32) : reflect n 0 = 0 := by
  apply BitVec.eq_of_getLsbD_eq
  intro j _
  rw [getLsbD_reflect hn, getLsbD_zeroWord, getLsbD_zeroWord, Bool.and_false]

theorem getLsbD_allOnesBelow {n : Nat} (hn : n ≤ 32) (j : Nat) :
    (BitVec.ofNat 32 (2 ^ n - 1)).getLsbD j = decide (j < n) := by
  rw [BitVec.getLsbD_ofNat, Nat.testBit_two_pow_sub_one]
  simp
  omega

theorem reflect_allOnesBelow {n : Nat} (hn : n ≤ 32) :
    reflect n (BitVec.ofNat 32 (2 ^ n - 1)) = BitVec.ofNat 32 (2 ^ n - 1) := by
  apply BitVec.eq_of_getLsbD_eq
  intro j _
  rw [getLsbD_reflect hn, getLsbD_allOnesBelow hn, getLsbD_allOnesBelow hn, ← Bool.decide_and]
  exact decide_eq_decide.mpr (by omega)

theorem reflect_one {n : Nat} (hpos : 0 < n) (hn : n ≤ 32) : reflect n 1 = BitVec.ofNat 32 (2 ^ (n - 1)) := by
  apply BitVec.eq_of_getLsbD_eq
  intro j hj
  rw [getLsbD_reflect hn, getLsbD_oneWord, BitVec.getLsbD_ofNat, Nat.testBit_two_pow, ← Bool.decide_and,
    ← Bool.decide_and]
  exact decide_eq_decide.mpr (by omega)

/-! ### O21 and O22 -/

theorem le_of_width {n : Nat} (h : n = 8 ∨ n = 16 ∨ n = 32) : n ≤ 32 := by omega

/-- Settles O21: the loop, bit by bit. -/
theorem reflectReversesTheLowBits : Obligations.ReflectReversesTheLowBits := by
  refine fun n v hn => ⟨fun j hj => ?_, reflect_lt (le_of_width hn) v⟩
  rw [getLsbD_reflect (le_of_width hn), decide_eq_true hj, Bool.true_and]

/-- Settles O22: each law from the bits of the reflection. -/
theorem reflectIsALinearInvolution : Obligations.ReflectIsALinearInvolution := by
  intro n hn a b ha _
  have hle := le_of_width hn
  exact ⟨reflect_reflect hle ha, reflect_xor hle a b, reflect_zero hle, reflect_allOnesBelow hle,
    reflect_one (by omega) hle⟩

end Sys2Proof.Machine
end

