-- ==== Sys2Proof/Proofs/Table.lean ====
section
/-! The laws of the lookup table (spec/42_divider_lut.md R147), the corner cases of DATA's update (spec/43_calculate.md
R169) and the order in which the divider meets a byte's bits (spec/20_memory.md R53). -/

namespace Sys2Proof.Machine

/-! ### Rounds -/

/-- The last of k+1 rounds. -/
theorem rounds_succ (w : Width) (poly : Word) (k : Nat) (c : Word) :
    rounds w poly (k + 1) c = divRound w poly (rounds w poly k c) := by
  induction k generalizing c with
  | zero => rfl
  | succ k ih => exact ih (divRound w poly c)

/-- Truncating before a shift or after it alone is the same. -/
theorem trunc_trunc_shiftLeft (w : Width) (c : Word) (k : Nat) : trunc w (trunc w c <<< k) = trunc w (c <<< k) := by
  apply BitVec.eq_of_getLsbD_eq
  intro j _
  simp only [getLsbD_trunc, BitVec.getLsbD_shiftLeft]
  grind

/-- With no polynomial a round only shifts. -/
theorem divRound_zero_poly (w : Width) (c : Word) : divRound w 0 c = trunc w (c <<< 1) := by
  simp [divRound]

theorem rounds_zero_poly {w : Width} {c : Word} (hc : c.toNat < 2 ^ w.bits) (k : Nat) :
    rounds w 0 k c = trunc w (c <<< k) := by
  induction k with
  | zero => rw [rounds, BitVec.shiftLeft_zero, trunc_of_lt hc]
  | succ k ih => rw [rounds_succ, ih, divRound_zero_poly, trunc_trunc_shiftLeft, ← BitVec.shiftLeft_add]

/-! ### The table (R147) -/

theorem buildEntry_zero (w : Width) (poly : Word) : buildEntry w poly 0 = 0 := by
  rw [buildEntry, topByte_zero, trunc_zero, div8_zero]

theorem buildEntry_xor (w : Width) (poly : Word) (a b : Byte) :
    buildEntry w poly (a ^^^ b) = buildEntry w poly a ^^^ buildEntry w poly b := by
  rw [buildEntry, topByte_xor, trunc_xor, div8_xor]
  rfl

/-- Seven rounds bring the bit of index 1 to the top, and the eighth exchanges it for the polynomial. -/
theorem buildEntry_one {w : Width} {poly : Word} (hpoly : poly.toNat < 2 ^ w.bits) : buildEntry w poly 1 = poly := by
  have hroom : (topByte w 1).toNat < 2 ^ (w.bits - 7) := by cases w <;> decide
  have htop : (topByte w 1 <<< 7).getLsbD (w.bits - 1) = true := by cases w <;> decide
  have hout : trunc w (topByte w 1 <<< 7 <<< 1) = 0 := by cases w <;> decide
  calc buildEntry w poly 1
      = divRound w poly (rounds w poly 7 (topByte w 1)) := by
        rw [buildEntry, trunc_of_lt (topByte_lt w 1)]
        exact rounds_succ w poly 7 _
    _ = trunc w (topByte w 1 <<< 7 <<< 1) ^^^ poly := by
        rw [rounds_of_room ((show 7 ≤ 8 by decide).trans (Width.le_bits w)) hroom, divRound_of_top_set hpoly htop]
    _ = poly := by rw [hout]; exact BitVec.zero_xor

/-- The XOR of the bytes with one bit that `i` has is `i`. -/
theorem foldl_xor_bits : ∀ i : Byte,
    (List.range 8).foldl (fun r k => if i.getLsbD k then r ^^^ (1 : Byte) <<< k else r) 0 = i := by decide +kernel

/-- A sum of table entries is the entry of the sum of the indices. -/
theorem foldl_buildEntry (w : Width) (poly : Word) (i : Byte) (l : List Nat) (r : Byte) :
    l.foldl (fun r k => if i.getLsbD k then r ^^^ buildEntry w poly ((1 : Byte) <<< k) else r) (buildEntry w poly r) =
      buildEntry w poly (l.foldl (fun r k => if i.getLsbD k then r ^^^ (1 : Byte) <<< k else r) r) := by
  refine List.foldl_hom (buildEntry w poly) fun r k => ?_
  split
  · rw [buildEntry_xor]
  · rfl

theorem buildEntry_eq_foldl_bits (w : Width) (poly : Word) (i : Byte) :
    buildEntry w poly i =
      (List.range 8).foldl (fun r k => if i.getLsbD k then r ^^^ buildEntry w poly ((1 : Byte) <<< k) else r) 0 := by
  rw [← buildEntry_zero w poly, foldl_buildEntry, foldl_xor_bits]

theorem buildEntry_zero_poly (w : Width) (i : Byte) : buildEntry w 0 i = 0 := by
  rw [buildEntry, trunc_of_lt (topByte_lt w i), div8, rounds_zero_poly (topByte_lt w i)]
  exact trunc_topByte_shiftLeft_eight w i

/-! ### RROM bit by bit (R123) -/

/-- R123: RROM holds each byte with its bits in the reverse order. -/
theorem getLsbD_reflectByte (b : Byte) {k : Nat} (hk : k < 8) : (reflectByte b).getLsbD k = b.getLsbD (7 - k) := by
  have hbit := congrArg (BitVec.getLsbD · k) (zextByte_reflectByte b)
  simp only [zextByte, getLsbD_reflect (show 8 ≤ 32 by decide), BitVec.getLsbD_setWidth] at hbit
  simpa [hk, show k < 32 by omega, show 7 - k < 32 by omega] using hbit

theorem palindrome_iff_mem : ∀ b : Byte, (∀ k < 8, b.getLsbD (7 - k) = b.getLsbD k) ↔
    b ∈ ([0x00, 0x18, 0x24, 0x3C, 0x42, 0x5A, 0x66, 0x7E, 0x81, 0x99, 0xA5, 0xBD, 0xC3, 0xDB, 0xE7, 0xFF] : List Byte) := by
  decide +kernel

/-- RROM fixes a byte exactly when its bits read the same from either end. -/
theorem reflectByte_eq_self_iff (b : Byte) : reflectByte b = b ↔ ∀ k < 8, b.getLsbD (7 - k) = b.getLsbD k := by
  constructor
  · intro h k hk
    rw [← getLsbD_reflectByte b hk, h]
  · intro h
    apply BitVec.eq_of_getLsbD_eq
    intro k hk
    rw [getLsbD_reflectByte b hk, h k hk]

/-! ### The corner cases of the update (R169) -/

theorem topByte_w8 (b : Byte) : topByte .w8 b = zextByte b := BitVec.shiftLeft_zero _

theorem directUpdate_w8 (poly : Word) {acc : Word} (hacc : acc.toNat < 2 ^ 8) (temp : Byte) :
    directUpdate .w8 poly acc temp = div8 .w8 poly (acc ^^^ zextByte temp) := by
  rw [directUpdate, trunc_of_lt (xor_lt hacc (topByte_lt .w8 temp)), topByte_w8]

theorem lutIndex_w8 (acc : Word) (temp : Byte) : lutIndex .w8 acc temp = acc.setWidth 8 ^^^ temp := by
  rw [lutIndex, Width.bits, Nat.sub_self, BitVec.ushiftRight_zero]

/-- At W = 8 the shift of the LUT path leaves nothing of the register. -/
theorem lutUpdate_w8 {acc e : Word} (hacc : acc.toNat < 2 ^ 8) (he : e.toNat < 2 ^ 8) : lutUpdate .w8 acc e = e := by
  have hbyte : acc = topByte .w8 (acc.setWidth 8) := by
    rw [topByte_w8, zextByte]
    exact BitVec.eq_of_toNat_eq (by simp; omega)
  rw [lutUpdate, trunc_xor, hbyte, trunc_topByte_shiftLeft_eight, trunc_of_lt he]
  exact BitVec.zero_xor

theorem directUpdate_zero_poly {w : Width} {acc : Word} (hacc : acc.toNat < 2 ^ w.bits) (temp : Byte) :
    directUpdate w 0 acc temp = trunc w ((acc ^^^ topByte w temp) <<< 8) := by
  have hlt := xor_lt hacc (topByte_lt w temp)
  rw [directUpdate, trunc_of_lt hlt, div8, rounds_zero_poly hlt]

theorem trunc_w8_shiftLeft_eight (c : Word) : trunc .w8 (c <<< 8) = 0 := by
  apply BitVec.eq_of_getLsbD_eq
  intro k _
  simp only [getLsbD_trunc, BitVec.getLsbD_shiftLeft, Width.bits]
  by_cases hk : k < 8 <;> simp [hk]

theorem directUpdate_zero_zero (w : Width) (poly : Word) : directUpdate w poly 0 0 = 0 := by
  rw [directUpdate, topByte_zero, BitVec.xor_self, trunc_zero_lit]
  exact div8_zero w poly

/-! ### The bits of a byte in order (R53) -/

/-- The first `k` bits of a byte, its bit 7 first. -/
def leadingBits : Nat → Byte → List Bool
  | 0, _ => []
  | k + 1, b => b.getLsbD 7 :: leadingBits k (b <<< 1)

theorem leadingBits_eight (b : Byte) : leadingBits 8 b = bitsMsbFirst b := by
  simp [leadingBits, bitsMsbFirst]

theorem bitsMsbFirst_reflectByte (b : Byte) : bitsMsbFirst (reflectByte b) = bitsLsbFirst b := by
  simp (disch := decide) only [bitsMsbFirst, bitsLsbFirst, getLsbD_reflectByte, Nat.reduceSub]

theorem trunc_topByte_shiftLeft_one (w : Width) (b : Byte) : trunc w (topByte w b <<< 1) = topByte w (b <<< 1) := by
  apply BitVec.eq_of_getLsbD_eq
  intro k hk
  have := Width.le_bits w
  rw [getLsbD_trunc, BitVec.getLsbD_shiftLeft, getLsbD_topByte, getLsbD_topByte, BitVec.getLsbD_shiftLeft]
  by_cases hlow : w.bits - 8 < k
  · by_cases hhigh : k < w.bits
    · simp [hk, hhigh, hlow.le, show k - 1 - (w.bits - 8) = k - (w.bits - 8) - 1 by omega,
        show w.bits - 8 ≤ k - 1 by omega, show k - (w.bits - 8) < 8 by omega, show ¬ k < 1 by omega,
        show ¬ k - (w.bits - 8) < 1 by omega]
    · simp [hhigh, show ¬ k - (w.bits - 8) < 8 by omega]
  · grind

/-- One round on a register met by a byte is one bit shifted in, with the rest of the byte still to come. -/
theorem divRound_xor_topByte {w : Width} {poly : Word} (hpoly : poly.toNat < 2 ^ w.bits) (acc : Word) (b : Byte) :
    divRound w poly (acc ^^^ topByte w b) = shiftInBit w poly acc (b.getLsbD 7) ^^^ topByte w (b <<< 1) := by
  have hbits := Width.le_bits w
  have htop : (acc ^^^ topByte w b).getLsbD (w.bits - 1) = (acc.getLsbD (w.bits - 1) ^^ b.getLsbD 7) := by
    rw [BitVec.getLsbD_xor, getLsbD_topByte, decide_eq_true (by omega), Bool.true_and,
      show w.bits - 1 - (w.bits - 8) = 7 by omega]
  have hshift : trunc w ((acc ^^^ topByte w b) <<< 1) = trunc w (acc <<< 1) ^^^ topByte w (b <<< 1) := by
    rw [BitVec.shiftLeft_xor_distrib, trunc_xor, trunc_topByte_shiftLeft_one]
  cases hmet : (acc ^^^ topByte w b).getLsbD (w.bits - 1) with
  | false => rw [divRound_of_top_clear hmet, hshift, shiftInBit, ← htop, hmet]; rfl
  | true =>
    rw [divRound_of_top_set hpoly hmet, hshift, shiftInBit, ← htop, hmet, if_pos rfl, BitVec.xor_assoc,
      BitVec.xor_comm (topByte w (b <<< 1)), BitVec.xor_assoc]

theorem rounds_xor_topByte {w : Width} {poly : Word} (hpoly : poly.toNat < 2 ^ w.bits) (k : Nat) (acc : Word) (b : Byte) :
    rounds w poly k (acc ^^^ topByte w b) =
      (leadingBits k b).foldl (shiftInBit w poly) acc ^^^ topByte w (b <<< k) := by
  induction k generalizing acc b with
  | zero => rw [BitVec.shiftLeft_zero]; rfl
  | succ k ih =>
    rw [rounds, divRound_xor_topByte hpoly, ih, leadingBits, List.foldl_cons, ← BitVec.shiftLeft_add, Nat.add_comm 1 k]

theorem directUpdate_eq_foldl_bits {w : Width} {poly acc : Word} (hpoly : poly.toNat < 2 ^ w.bits)
    (hacc : acc.toNat < 2 ^ w.bits) (b : Byte) :
    directUpdate w poly acc b = (leadingBits 8 b).foldl (shiftInBit w poly) acc := by
  have hgone : b <<< 8 = 0 := BitVec.shiftLeft_eq_zero (le_refl 8)
  rw [directUpdate, trunc_of_lt (xor_lt hacc (topByte_lt w b)), div8, rounds_xor_topByte hpoly, hgone, topByte_zero]
  exact BitVec.xor_zero

/-! ### O27, O31, O39 -/

/-- Settles O27: linearity of Div8 and of the byte's placement; the XOR over the bits from additivity. -/
theorem tableLaws : Obligations.TableLaws := fun w poly hpoly =>
  ⟨buildEntry_zero w poly, buildEntry_one hpoly, buildEntry_xor w poly, buildEntry_eq_foldl_bits w poly,
    buildEntry_zero_poly w⟩

/-- Settles O31: the four cases, and the example of R169 computed. -/
theorem dataCornerCases : Obligations.DataCornerCases := by
  refine ⟨fun poly acc e temp hacc he => ⟨directUpdate_w8 poly hacc temp, lutIndex_w8 acc temp, lutUpdate_w8 hacc he⟩,
    fun w acc temp hacc => ⟨directUpdate_zero_poly hacc temp, ?shiftedOut⟩,
    fun w poly _ => ⟨directUpdate_zero_zero w poly, ?zeroEntry⟩,
    fun b => (reflectByte_eq_self_iff b).trans (palindrome_iff_mem b), by decide, by decide⟩
  case shiftedOut =>
    rintro rfl
    rw [directUpdate_zero_poly hacc, trunc_w8_shiftLeft_eight]
  case zeroEntry =>
    rw [lutUpdate_buildEntry (Nat.two_pow_pos _), directUpdate_zero_zero]

/-- Settles O39: eight rounds shift in the eight leading bits; RROM reverses them. -/
theorem messageBitsAreConsumedInOrder : Obligations.MessageBitsAreConsumedInOrder := by
  intro w poly acc b hpoly hacc
  rw [← bitsMsbFirst_reflectByte, ← leadingBits_eight, ← leadingBits_eight]
  exact ⟨directUpdate_eq_foldl_bits hpoly hacc b, directUpdate_eq_foldl_bits hpoly hacc (reflectByte b)⟩

end Sys2Proof.Machine
end

