-- ==== Sys2Proof/Proofs/Sessions.lean ====
section
/-! Sessions as runs of commands (spec/43_calculate.md R160, R175 to R177): what a session emits, with whatever may stand
between its DATA. -/

namespace Sys2Proof.Machine

/-! ### From the invariant -/

/-- R35, R105: the table of a state that meets the invariant is that of its polynomial. -/
theorem State.Inv.tableOfPoly {s : State} (h : s.Inv) : s.TableOfPoly := by
  intro hul k
  rw [buildEntry_eq]
  exact h.valid_entry (h.use_valid hul) k

theorem State.Inv.session_of_mode {s : State} (h : s.Inv) (hm : s.mode = .active) : ∃ a, s.Session a := by
  obtain ⟨hf, ha⟩ := mode_active_iff.mp hm
  exact h.exists_session hf ha

/-- START opens a session with INIT in ACC. -/
theorem session_openSession {s : State} (hinv : s.Inv) (hm : s.mode = .ready) :
    (openSession (responsesTaken s)).Session s.init := by
  obtain ⟨hf, -, hc⟩ := mode_ready_iff.mp hm
  exact ⟨hf, hc, rfl, rfl, hinv.init_lt, hinv.tableOfPoly⟩

/-! ### Runs of commands -/

theorem runCommands_cons_next_iff {i : Instr} {is : List Instr} {s t : State} :
    runCommands (i :: is) s = .next t ↔ ∃ u, exec i (responsesTaken s) = .next u ∧ runCommands is u = .next t := by
  rw [runCommands, List.map_cons, acceptWords_cons_next_iff, acceptWord_of_decode (decode_encode i)]
  rfl

theorem runCommands_append_next_iff {is js : List Instr} {s t : State} :
    runCommands (is ++ js) s = .next t ↔ ∃ u, runCommands is s = .next u ∧ runCommands js u = .next t := by
  induction is generalizing s with
  | nil => simp [runCommands, acceptWords]
  | cons i is ih =>
    rw [List.cons_append, runCommands_cons_next_iff]
    simp only [ih, runCommands_cons_next_iff]
    constructor
    · rintro ⟨v, hi, u, hu, ht⟩
      exact ⟨u, ⟨v, hi, hu⟩, ht⟩
    · rintro ⟨u, ⟨v, hi, hu⟩, ht⟩
      exact ⟨v, hi, u, hu, ht⟩

theorem runCommands_singleton_next_iff {i : Instr} {s t : State} :
    runCommands [i] s = .next t ↔ exec i (responsesTaken s) = .next t := by
  rw [runCommands_cons_next_iff]
  constructor
  · rintro ⟨u, hu, ht⟩
    cases ht
    exact hu
  · exact fun h => ⟨t, h, rfl⟩

/-- R222: no command of a run leaves FAULTED mode. -/
theorem runCommands_faulted {is : List Instr} {s t : State} (hf : s.faulted = true) (h : runCommands is s = .next t) :
    t.faulted = true := by
  induction is generalizing s with
  | nil => cases h; exact hf
  | cons i is ih =>
    obtain ⟨u, hu, ht⟩ := runCommands_cons_next_iff.mp h
    have hfu : u.faulted = true := by
      rcases exec_next_of_faulted (s := responsesTaken s) hf hu with rfl | ⟨v, rfl⟩ <;> exact hf
    exact ih hfu ht

/-! ### Inside a session (R175) -/

/-- The configuration that a session's checksum depends on, with the width. -/
def State.SameEngine (s t : State) : Prop := t.width = s.width ∧ s.SameConfig t

theorem State.SameEngine.refl (s : State) : s.SameEngine s := ⟨rfl, .refl s⟩

theorem State.SameEngine.trans {s t u : State} (hst : s.SameEngine t) (htu : t.SameEngine u) : s.SameEngine u :=
  ⟨htu.1.trans hst.1, hst.2.trans htu.2⟩

theorem State.SameEngine.checksumAcc {s t : State} (h : s.SameEngine t) (a : Word) (bytes : List Byte) :
    checksumAcc t.width t.poly a t.refin bytes = checksumAcc s.width s.poly a s.refin bytes := by
  obtain ⟨hwidth, hpoly, -, -, hrefin, -⟩ := h
  rw [hwidth, hpoly, hrefin]

theorem messageBytes_cons (i : Instr) (is : List Instr) : messageBytes (i :: is) = messageBytes [i] ++ messageBytes is := by
  cases i <;> rfl

theorem checksumAcc_append (w : Width) (poly a : Word) (refin : Bool) (bytes bytes' : List Byte) :
    checksumAcc w poly a refin (bytes ++ bytes') = checksumAcc w poly (checksumAcc w poly a refin bytes) refin bytes' :=
  List.foldl_append

/-- A command inside a session that raises no error keeps the configuration and leaves the session open, with ACC advanced by
its message byte, if it has one. -/
theorem exec_insideSession {i : Instr} {s t : State} {a : Word} (hs : s.Session a) (hi : insideSession i)
    (h : exec i s = .next t) (ht : t.faulted = false) :
    s.SameEngine t ∧ t.Session (checksumAcc s.width s.poly a s.refin (messageBytes [i])) := by
  rcases exec_next_cases h with ⟨hf, -⟩ | ⟨-, _, rfl⟩ | ⟨v, rfl, hi'⟩ | ⟨-, h'⟩
  · exact absurd hf (by simp [hs.live])
  · exact absurd ht (by simp)
  · refine ⟨.refl s, ?_⟩
    rcases hi' with ⟨_, rfl⟩ | ⟨-, ⟨_, rfl⟩ | ⟨_, _, rfl⟩⟩ <;> exact { hs with }
  · rcases h' with ⟨_, rfl, rfl⟩ | ⟨_, rfl, rfl⟩ | ⟨_, rfl, rfl⟩ | ⟨_, _, _, rfl, -⟩ | ⟨rfl, -⟩ | ⟨b, rfl, -⟩ | ⟨rfl, -⟩
    · exact ⟨.refl s, { hs with }⟩
    · exact ⟨.refl s, { hs with }⟩
    · exact ⟨.refl s, { hs with }⟩
    · exact hi.elim
    · exact hi.elim
    · rw [exec_data_of_session hs] at h
      cases h
      exact ⟨.refl s, hs.next b⟩
    · exact hi.elim

/-- By induction over the commands between START and FINISH. -/
theorem runCommands_insideSession {is : List Instr} {s t : State} {a : Word} (hs : s.Session a)
    (his : ∀ i ∈ is, insideSession i) (h : runCommands is s = .next t) (ht : t.faulted = false) :
    s.SameEngine t ∧ t.Session (checksumAcc s.width s.poly a s.refin (messageBytes is)) := by
  induction is generalizing s a with
  | nil => cases h; exact ⟨.refl _, hs⟩
  | cons i is ih =>
    obtain ⟨u, hu, hrest⟩ := runCommands_cons_next_iff.mp h
    have hlive : u.faulted = false :=
      Bool.eq_false_iff.mpr fun hf => absurd (runCommands_faulted hf hrest) (by simp [ht])
    have htaken : (responsesTaken s).Session a := { hs with }
    obtain ⟨hsame, hsession⟩ := exec_insideSession htaken (his i (.head is)) hu hlive
    obtain ⟨hsame', hsession'⟩ := ih hsession (fun j hj => his j (.tail i hj)) hrest
    rw [hsame.checksumAcc, ← checksumAcc_append, ← messageBytes_cons] at hsession'
    exact ⟨State.SameEngine.trans hsame hsame', hsession'⟩

/-- FINISH in a session emits the word of its ACC. -/
theorem exec_finish_of_session {s t : State} {a : Word} (hs : s.Session a) (h : exec .finish s = .next t) :
    t.resp = s.resp ++ [trunc s.width (outputValue s.width s.refout a ^^^ s.xorout)] := by
  rw [exec_finish_of_acc hs.live hs.configured hs.active hs.acc_eq] at h
  cases h
  rfl

/-- R175: a session with any commands in it that ends without an error ends with the checksum of its bytes. -/
theorem getLast?_resp_of_session {is : List Instr} {s t : State} (hinv : s.Inv) (hm : s.mode = .ready)
    (his : ∀ i ∈ is, insideSession i) (h : runCommands (.start :: (is ++ [.finish])) s = .next t)
    (ht : t.faulted = false) : t.resp.getLast? = some (s.checksum (messageBytes is)) := by
  rw [runCommands_start hm, runCommands_append_next_iff] at h
  obtain ⟨u, hu, hfinish⟩ := h
  have hlive : u.faulted = false :=
    Bool.eq_false_iff.mpr fun hf => absurd (runCommands_faulted hf hfinish) (by simp [ht])
  obtain ⟨⟨hwidth, -, -, hxorout, -, hrefout, -⟩, hsession⟩ :=
    runCommands_insideSession (session_openSession hinv hm) his hu hlive
  have htaken : (responsesTaken u).Session _ := { hsession with }
  rw [exec_finish_of_session htaken (runCommands_singleton_next_iff.mp hfinish), List.getLast?_concat]
  simp only [responsesTaken_width, responsesTaken_xorout, responsesTaken_refout, hwidth, hxorout, hrefout]
  rfl

/-! ### O36 to O38 -/

/-- Settles O36: the run of a session, with the two premises of it from the invariant. -/
theorem sessionEmitsTheChecksum : Obligations.SessionEmitsTheChecksum := by
  intro s bytes hinv hm
  obtain ⟨-, ha, -⟩ := mode_ready_iff.mp hm
  refine ⟨_, runCommands_calcCommands hm hinv.init_lt hinv.tableOfPoly bytes, rfl, ?_⟩
  rw [State.SameButResponses, ← hinv.idle_acc ha, ← ha]

/-- Settles O37: either session ends with the checksum of its own configuration and bytes, which are the same. -/
theorem sessionsAreIndependent : Obligations.SessionsAreIndependent := by
  intro s s' t t' is is' hinv hinv' hm hm' hwidth hpoly hinit hxorout hrefin hrefout his his' hbytes h ht h' ht'
  have hlast := getLast?_resp_of_session hinv hm his h ht
  have hlast' := getLast?_resp_of_session hinv' hm' his' h' ht'
  have hsame : s'.checksum (messageBytes is') = s.checksum (messageBytes is) := by
    rw [State.checksum, ← hwidth, ← hpoly, ← hinit, ← hxorout, ← hrefin, ← hrefout, ← hbytes]
    rfl
  exact ⟨by rw [hlast, hlast', hsame], hlast⟩

/-- Settles O38: the word that FINISH emits is truncated to W bits. -/
theorem checksumsAreBelowTwoToTheW : Obligations.ChecksumsAreBelowTwoToTheW := by
  intro s t v h hresp
  have hlt : v.toNat < 2 ^ s.width.bits := by
    rcases exec_next_cases h with ⟨-, rfl⟩ | ⟨-, _, rfl⟩ | ⟨_, -, hi⟩ | ⟨-, h'⟩
    · exact absurd hresp (by simp)
    · exact absurd hresp (by simp)
    · simp at hi
    · rcases h' with ⟨_, hi, -⟩ | ⟨_, hi, -⟩ | ⟨_, hi, -⟩ | ⟨_, _, _, hi, -⟩ | ⟨hi, -⟩ | ⟨_, hi, -⟩ | ⟨-, -, -, a, -, rfl⟩
      · cases hi
      · cases hi
      · cases hi
      · cases hi
      · cases hi
      · cases hi
      · obtain rfl : trunc s.width (outputValue s.width s.refout a ^^^ s.xorout) = v := by simpa using hresp
        exact trunc_lt _ _
  exact ⟨hlt, (lt_two_pow_iff _ v).mp hlt⟩

end Sys2Proof.Machine
end

