-- ==== Sys2Proof/Proofs/Sequences.lean ====
section
/-! Commands one after the other: constructions in any staging order (spec/40_construction.md R100), which commands may be
repeated (spec/20_memory.md R58), what a command sees of the one before it (spec/70_reset_and_hazards.md R248), and that no
value is an error (spec/60_exceptions.md R210). -/

namespace Sys2Proof.Machine

/-! ### The staging commands -/

/-- SETPOLY, SETINIT and SETXOR (R101 to R103). -/
def isStaging : Instr → Prop
  | .setpoly _ => True
  | .setinit _ => True
  | .setxor _ => True
  | _ => False

/-- The effect of a staging command. -/
def stageOne (s : State) : Instr → State
  | .setpoly v => { s with polyS := v }
  | .setinit v => { s with initS := v }
  | .setxor v => { s with xorS := v }
  | _ => s

theorem exec_of_staging {i : Instr} {s : State} (hi : isStaging i) (hf : s.faulted = false) :
    exec i s = .next (stageOne s i) := by
  cases i with
  | setpoly v => exact exec_setpoly_of_live hf v
  | setinit v => exact exec_setinit_of_live hf v
  | setxor v => exact exec_setxor_of_live hf v
  | _ => exact hi.elim

theorem stageOne_faulted (s : State) (i : Instr) : (stageOne s i).faulted = s.faulted := by cases i <;> rfl

theorem stageOne_waiting (s : State) (i : Instr) : (stageOne s i).waiting = s.waiting := by cases i <;> rfl

theorem stageOne_stageOne (s : State) (i : Instr) : stageOne (stageOne s i) i = stageOne s i := by cases i <;> rfl

/-- A run of staging commands applies their effects in order. -/
theorem runCommands_staging {is : List Instr} (his : ∀ i ∈ is, isStaging i) {s : State} (hf : s.faulted = false)
    (hw : s.waiting = 0) : runCommands is s = .next (is.foldl stageOne s) := by
  induction is generalizing s with
  | nil => rfl
  | cons i is ih =>
    have hexec : exec i (responsesTaken s) = .next (stageOne s i) := by
      rw [responsesTaken_of_none_waiting hw, exec_of_staging (his i (.head is)) hf]
    rw [runCommands_cons hexec, List.foldl_cons]
    exact ih (fun j hj => his j (.tail i hj)) ((stageOne_faulted s i).trans hf) ((stageOne_waiting s i).trans hw)

/-- R100: the three registers are written once each, so the order does not matter. -/
theorem foldl_stageOne_of_perm {p i x : Word} {staging : List Instr}
    (hperm : staging.Perm [.setpoly p, .setinit i, .setxor x]) (s : State) :
    staging.foldl stageOne (responsesTaken s) = stage p i x s := by
  refine (hperm.foldl_eq' (fun j hj k hk u => ?commute) (responsesTaken s)).trans rfl
  have hj' := hperm.subset hj
  have hk' := hperm.subset hk
  simp only [List.mem_cons, List.not_mem_nil, or_false] at hj' hk'
  rcases hj' with rfl | rfl | rfl <;> rcases hk' with rfl | rfl | rfl <;> rfl

theorem isStaging_of_perm {p i x : Word} {staging : List Instr}
    (hperm : staging.Perm [.setpoly p, .setinit i, .setxor x]) : ∀ j ∈ staging, isStaging j := by
  intro j hj
  have hj' := hperm.subset hj
  simp only [List.mem_cons, List.not_mem_nil, or_false] at hj'
  rcases hj' with rfl | rfl | rfl <;> trivial

theorem runCommands_construction {p i x : Word} {staging : List Instr}
    (hperm : staging.Perm [.setpoly p, .setinit i, .setxor x]) {s : State} (hf : s.faulted = false)
    (ha : s.active = false) (ri ro ul : Bool) :
    runCommands (staging ++ [.configure ri ro ul]) s = .next (commit ri ro ul (stage p i x s)) := by
  have hstage : runCommands staging (responsesTaken s) = .next (stage p i x s) := by
    rw [runCommands_staging (isStaging_of_perm hperm) (by exact hf) rfl, foldl_stageOne_of_perm hperm]
  have htaken : runCommands (staging ++ [.configure ri ro ul]) s =
      runCommands (staging ++ [.configure ri ro ul]) (responsesTaken s) := by
    cases staging <;> rfl
  rw [htaken, runCommands_append hstage]
  exact runCommands_cons (exec_configure_of_idle (by exact hf) (by exact ha) ri ro ul)

/-! ### A command twice (R58) -/

/-- A command that has nothing left to do the second time. -/
theorem runCommands_twice {i : Instr} {s t : State} (hfirst : exec i (responsesTaken s) = .next t)
    (hagain : exec i (responsesTaken t) = .next t) : runCommands [i, i] s = runCommands [i] s := by
  rw [runCommands_cons hfirst, runCommands_cons hagain, runCommands_cons hfirst]

theorem runCommands_staging_twice {i : Instr} (hi : isStaging i) (s : State) :
    runCommands [i, i] s = runCommands [i] s := by
  rcases bool_cases s.faulted with hf | hf
  · have hdiscard : exec i (responsesTaken s) = .next (responsesTaken s) :=
      exec_of_faulted (by exact hf) fun sel hsel => by rw [hsel] at hi; exact hi.elim
    exact runCommands_twice hdiscard hdiscard
  · have hlive := (stageOne_faulted (responsesTaken s) i).trans hf
    have hnone := stageOne_waiting (responsesTaken s) i
    refine runCommands_twice (exec_of_staging hi (by exact hf)) ?_
    rw [responsesTaken_of_none_waiting hnone, exec_of_staging hi hlive, stageOne_stageOne]

theorem runCommands_configure_twice {s : State} (hm : s.mode = .ready) (ri ro ul : Bool) :
    runCommands [.configure ri ro ul, .configure ri ro ul] s = runCommands [.configure ri ro ul] s := by
  obtain ⟨hf, ha, -⟩ := mode_ready_iff.mp hm
  exact runCommands_twice (exec_configure_of_idle (s := responsesTaken s) hf ha ri ro ul)
    (exec_configure_of_idle (s := commit ri ro ul (responsesTaken s)) hf ha ri ro ul)

/-! ### The three commands that only read (R58) -/

/-- READCFG, READLUT and REFLECT. -/
def isRead (i : Instr) : Prop := (∃ k, i = .readcfg k) ∨ (∃ k, i = .readlut k) ∨ ∃ bm v, i = .reflect bm v

/-- The word such a command emits, where it succeeds. -/
def readWord (s : State) : Instr → Option Word
  | .readcfg k => cfgWord s k
  | .readlut k => if s.faulted = false ∧ s.configured = true ∧ s.lutValid = true then lutAt s.lut k else none
  | .reflect bm v => if s.faulted = false then some (reflectOperand s.width bm v) else none
  | _ => none

/-- The word does not depend on the response channel. -/
theorem readWord_emit (v : Word) (s : State) (i : Instr) : readWord (emit v s) i = readWord s i := by cases i <;> rfl

theorem exec_of_readWord {i : Instr} {s : State} {v : Word} (h : readWord s i = some v) :
    exec i s = .next (emit v s) := by
  cases i with
  | readcfg k => rw [exec_readcfg, show cfgWord s k = some v from h]
  | readlut k =>
    obtain ⟨⟨hf, hc, hl⟩, hv⟩ := Option.ite_none_right_eq_some.mp h
    exact exec_readlut_of_entry hf hc hl hv
  | reflect bm w =>
    obtain ⟨hf, hv⟩ := Option.ite_none_right_eq_some.mp h
    rw [exec_reflect_of_live hf, Option.some.inj hv]
  | _ => cases h

/-- Where there is no word, nothing is emitted. -/
theorem exec_resp_of_readWord_none {i : Instr} {s t : State} (hi : isRead i) (hnone : readWord s i = none)
    (h : exec i s = .next t) : t.resp = s.resp := by
  rcases hi with ⟨k, rfl⟩ | ⟨k, rfl⟩ | ⟨bm, w, rfl⟩
  · rw [exec_readcfg, show cfgWord s k = none from hnone] at h
    rcases ite_eq_cases h with ⟨-, h⟩ | ⟨-, h⟩ <;> cases h <;> rfl
  · rcases bool_cases s.faulted with hf | hf
    · rw [exec_readlut_of_faulted hf] at h; cases h; rfl
    rcases bool_cases s.configured with hc | hc
    · rcases bool_cases s.lutValid with hl | hl
      · have hentry : lutAt s.lut k = none := by simpa [readWord, hf, hc, hl] using hnone
        simp [exec_readlut, hf, hc, hl, hentry] at h
      · rw [exec_readlut_of_no_table hf hc hl] at h; cases h; rfl
    · rw [exec_readlut_of_not_configured hf hc] at h; cases h; rfl
  · rcases bool_cases s.faulted with hf | hf
    · rw [exec_reflect_of_faulted hf] at h; cases h; rfl
    · simp [readWord, hf] at hnone

/-- A command that reads and has emitted changed nothing but the response channel, and emits the same word again. -/
theorem exec_read_again {i : Instr} {s t : State} {v : Word} (hi : isRead i) (h : exec i s = .next t)
    (hresp : t.resp = s.resp ++ [v]) : t = emit v s ∧ exec i t = .next (emit v t) := by
  cases hword : readWord s i with
  | none => exact absurd ((exec_resp_of_readWord_none hi hword h).symm.trans hresp) (by simp)
  | some w =>
    rw [exec_of_readWord hword] at h
    cases h
    obtain rfl : w = v := by simpa using hresp
    exact ⟨rfl, exec_of_readWord ((readWord_emit w s i).trans hword)⟩

/-! ### A command right after another (R248) -/

theorem runCommands_setpoly_configure {s : State} (hf : s.faulted = false) (ha : s.active = false) (p : Word)
    (ri ro ul : Bool) :
    runCommands [.setpoly p, .configure ri ro ul] s = .next (commit ri ro ul { responsesTaken s with polyS := p }) :=
  (runCommands_cons (exec_setpoly_of_live (s := responsesTaken s) hf p)).trans
    (runCommands_cons (exec_configure_of_idle (by exact hf) (by exact ha) ri ro ul))

/-- DATA in a run, inside a session. -/
theorem runCommands_data_cons {s : State} {a : Word} (hs : s.Session a) (b : Byte) (is : List Instr) :
    runCommands (.data b :: is) s =
      runCommands is { responsesTaken s with acc := some (checksumByte s.width s.poly s.refin a b) } := by
  have htaken : (responsesTaken s).Session a := { hs with }
  exact runCommands_cons (exec_data_of_session htaken b)

theorem runCommands_configure_readlut {s : State} (hf : s.faulted = false) (ha : s.active = false) (ri ro : Bool)
    (k : Byte) :
    runCommands [.configure ri ro true, .readlut k] s =
      .next (emit (buildEntry s.width (trunc s.width s.polyS) k) (commit ri ro true (responsesTaken s))) := by
  have hentry : lutAt (commit ri ro true (responsesTaken s)).lut k =
      some (buildEntry s.width (trunc s.width s.polyS) k) := lutAt_commit ri ro true (responsesTaken s) k
  exact (runCommands_cons (exec_configure_of_idle (s := responsesTaken s) hf ha ri ro true)).trans
    (runCommands_cons (exec_readlut_of_entry (by exact hf) rfl rfl hentry))

/-! ### O19, O32, O53, O54 -/

/-- Settles O19: the staging commands write each register once, and CONFIGURE commits what they wrote. -/
theorem constructionInAnyStagingOrder : Obligations.ConstructionInAnyStagingOrder := by
  intro s p i x ri ro ul staging hm hperm
  obtain ⟨hf, ha⟩ := live_and_idle_of_mode hm
  exact ⟨_, runCommands_construction hperm hf ha ri ro ul, rfl, rfl, rfl, toNat_trunc _ _, toNat_trunc _ _, toNat_trunc _ _,
    rfl, rfl, rfl, rfl, lutAt_commit ri ro ul (stage p i x s), mode_commit (s := stage p i x s) hf ha ri ro ul⟩

/-- Settles O32: a DATA of a session, a whole session, and a construction, none of which meets a check of its operand. -/
theorem noByteAndNoParameterIsAnError : Obligations.NoByteAndNoParameterIsAnError := by
  refine ⟨fun s b hinv hm => ?byte, fun s bytes hinv hm => ?session, fun s p i x ri ro ul hm => ?construction⟩
  case byte =>
    obtain ⟨a, hs⟩ := hinv.session_of_mode hm
    exact ⟨_, _, exec_data_of_session hs b, rfl, rfl, (hs.next b).acc_lt⟩
  case session =>
    obtain ⟨hf, -, hc⟩ := mode_ready_iff.mp hm
    exact ⟨_, runCommands_calcCommands hm hinv.init_lt hinv.tableOfPoly bytes, mode_ready_iff.mpr ⟨hf, rfl, hc⟩⟩
  case construction =>
    obtain ⟨hf, ha⟩ := live_and_idle_of_mode hm
    exact ⟨_, runCommands_configCommands hf ha p i x ri ro ul, mode_commit (s := stage p i x s) hf ha ri ro ul⟩

/-- Settles O53: the six sentences of R58. -/
theorem sideEffectsAndIdempotence : Obligations.SideEffectsAndIdempotence := by
  refine ⟨fun i s t hi h v hresp => ?reads,
    fun s v => ⟨runCommands_staging_twice (i := .setpoly v) trivial s,
      runCommands_staging_twice (i := .setinit v) trivial s, runCommands_staging_twice (i := .setxor v) trivial s⟩,
    fun s ri ro ul hm => runCommands_configure_twice hm ri ro ul, fun s t hm h => ?start, fun s b hinv hm => ?data,
    fun s t hinv hm h => ?finish⟩
  case reads =>
    obtain ⟨rfl, hagain⟩ := exec_read_again hi h hresp
    exact ⟨rfl, _, hagain, rfl⟩
  case start =>
    obtain ⟨hf, ha, hc⟩ := mode_ready_iff.mp hm
    rw [exec_start_of_idle hf hc ha] at h
    cases h
    exact exec_start_of_active (s := openSession s) hf hc rfl
  case data =>
    obtain ⟨a, hs⟩ := hinv.session_of_mode hm
    have htaken : (responsesTaken s).Session a := { hs with }
    refine ⟨a, _, hs.acc_eq, (runCommands_data_cons hs b [.data b]).trans (runCommands_data_cons (htaken.next b) b []), ?_⟩
    simp only [← checksumByte_eq_directUpdate]
    rfl
  case finish =>
    obtain ⟨a, hs⟩ := hinv.session_of_mode hm
    rw [exec_finish_of_acc hs.live hs.configured hs.active hs.acc_eq] at h
    cases h
    exact exec_finish_of_idle (by exact hs.live) (by exact hs.configured) rfl

/-- Settles O54: in each pair the second command runs on the state that the first one wrote. -/
theorem commandsSeeWhatTheOneBeforeWrote : Obligations.CommandsSeeWhatTheOneBeforeWrote := by
  refine ⟨fun s p ri ro ul hf ha => ⟨_, runCommands_setpoly_configure hf ha p ri ro ul, toNat_trunc _ _⟩,
    fun s b hinv hm => ?data, fun s ri ro k hf ha => ⟨_, runCommands_configure_readlut hf ha ri ro k, ?entry⟩⟩
  case data =>
    refine ⟨_, (runCommands_start hm [.data b]).trans (runCommands_data_cons (session_openSession hinv hm) b []), ?_⟩
    rw [← checksumByte_eq_directUpdate]
    rfl
  case entry =>
    rw [ofNat_mod_two_pow_bits]
    rfl

end Sys2Proof.Machine
end

