-- ==== Sys2Proof/Proofs/Assembler.lean ====
section
/-! The assembler (spec/30_encoding.md R79 to R81): the word of each line, the lines that are refused, the
pseudo-instructions as their expansions, and the text of a string CALC. -/

namespace Sys2Proof.Machine

/-! ### A line with its operand in range -/

theorem assembleLine_of_wf {l : AsmLine} (h : l.wf = true) : assembleLine l = some (lineWords l) := if_pos h

theorem assembleLine_of_not_wf {l : AsmLine} (h : l.wf = false) : assembleLine l = none := by simp [assembleLine, h]

theorem imm32Ok_of_lt {n : Nat} (h : n < 2 ^ 32) : imm32Ok n = true := decide_eq_true h

theorem imm32Ok_of_ge {n : Nat} (h : 2 ^ 32 ≤ n) : imm32Ok n = false := decide_eq_false h.not_gt

theorem imm8Ok_of_lt {n : Nat} (h : n < 2 ^ 8) : imm8Ok n = true := decide_eq_true h

theorem imm8Ok_of_ge {n : Nat} (h : 2 ^ 8 ≤ n) : imm8Ok n = false := decide_eq_false h.not_gt

/-! ### Words from an opcode, a control byte and an operand -/

/-- The fields of a word with no reserved bit set, put together by OR. -/
theorem mkWord_eq_or (o c : Byte) (v : Word) :
    mkWord o c v = o.setWidth 64 <<< 56 ||| c.setWidth 64 <<< 32 ||| v.setWidth 64 := by
  apply BitVec.eq_of_getLsbD_eq
  intro k hk
  rw [mkWord_eq_fourFields]
  simp only [getLsbD_fourFields, BitVec.getLsbD_or, BitVec.getLsbD_shiftLeft, BitVec.getLsbD_setWidth]
  grind

theorem setWidth_ofNat_imm32 {n : Nat} (h : n < 2 ^ 32) : (BitVec.ofNat 32 n).setWidth 64 = BitVec.ofNat 64 n := by
  apply BitVec.eq_of_toNat_eq
  simp
  omega

theorem setWidth_ofNat_imm8 {n : Nat} (h : n < 2 ^ 8) :
    ((BitVec.ofNat 8 n).setWidth 32).setWidth 64 = BitVec.ofNat 64 n := by
  apply BitVec.eq_of_toNat_eq
  simp
  omega

/-- The word of a command with an imm32 operand (R79). -/
theorem mkWord_imm32 (o c : Byte) {n : Nat} (h : n < 2 ^ 32) :
    mkWord o c (BitVec.ofNat 32 n) = (o.setWidth 64 <<< 56 ||| c.setWidth 64 <<< 32) ||| BitVec.ofNat 64 n := by
  rw [mkWord_eq_or, setWidth_ofNat_imm32 h]

/-- The word of a command with an imm8 operand (R79). -/
theorem mkWord_imm8 (o : Byte) {n : Nat} (h : n < 2 ^ 8) :
    mkWord o 0 ((BitVec.ofNat 8 n).setWidth 32) = (o.setWidth 64 <<< 56 ||| (0 : CmdWord)) ||| BitVec.ofNat 64 n := by
  rw [mkWord_eq_or, setWidth_ofNat_imm8 h]
  rfl

/-- The word of a CONFIGURE, flag by flag (R79). -/
theorem encode_configure : ∀ ri ro ul : Bool, encode (.configure ri ro ul) =
    0x0400000000000000 ||| (if ri then (1 : CmdWord) <<< 32 else 0) ||| (if ro then (1 : CmdWord) <<< 33 else 0) |||
      (if ul then (1 : CmdWord) <<< 34 else 0) := by decide

theorem lineWords_configure (fs : List Flag) :
    lineWords (.configure fs) = [0x0400000000000000 |||
      (if Flag.refin ∈ fs then (1 : CmdWord) <<< 32 else 0) |||
      (if Flag.refout ∈ fs then (1 : CmdWord) <<< 33 else 0) |||
      (if Flag.lut ∈ fs then (1 : CmdWord) <<< 34 else 0)] := by
  simp only [lineWords, configureOf, encode_configure, decide_eq_true_eq]

/-! ### Programs -/

/-- A program is refused when one of its lines is, and else is the words of its lines. -/
theorem assemble_eq (ls : List AsmLine) :
    assemble ls = if ls.all AsmLine.wf then some (ls.flatMap lineWords) else none := by
  induction ls with
  | nil => rfl
  | cons l ls ih =>
    rw [assemble, ih, List.all_cons, List.flatMap_cons]
    cases hl : l.wf with
    | false => rw [assembleLine_of_not_wf hl]; rfl
    | true =>
      rw [assembleLine_of_wf hl, Bool.true_and]
      cases ls.all AsmLine.wf <;> rfl

theorem assembleLine_config (p i x : Nat) (fs : List Flag) :
    assembleLine (.config p i x fs) = assemble [.setpoly p, .setinit i, .setxor x, .configure fs] := by
  rw [assemble_eq, assembleLine]
  simp only [List.all_cons, List.all_nil, AsmLine.wf, Bool.and_true, Bool.and_assoc]
  rfl

theorem flatMap_lineWords_data (bs : List Nat) :
    (bs.map AsmLine.data).flatMap lineWords = ((bs.map (BitVec.ofNat 8)).map Instr.data).map encode := by
  induction bs with
  | nil => rfl
  | cons b bs ih => simp only [List.map_cons, List.flatMap_cons, ih]; rfl

theorem assembleLine_calc (bs : List Nat) :
    assembleLine (.calc bs) = assemble (.start :: (bs.map .data ++ [.finish])) := by
  have hwf : (bs.map AsmLine.data).all AsmLine.wf = bs.all imm8Ok := List.all_map
  have hwords : (AsmLine.start :: (bs.map AsmLine.data ++ [.finish])).flatMap lineWords = lineWords (.calc bs) := by
    rw [List.flatMap_cons, List.flatMap_append, flatMap_lineWords_data]
    simp [lineWords, calcCommands]
  rw [assemble_eq, assembleLine, hwords, List.all_cons, List.all_append, hwf]
  simp [AsmLine.wf]

/-! ### The text of a string (R81, log entry 8) -/

/-- No character that would close the string. -/
def QuoteFree (cs : List Char) : Prop := ∀ c ∈ cs, c ≠ '"'

/-- Up to its closing quote a string's characters are taken as they stand. -/
theorem lex_str (cs cur : List Char) (h : QuoteFree cs) :
    lex (.str cur) (cs ++ ['"']) = some [.str (cur.reverse ++ cs)] := by
  induction cs generalizing cur with
  | nil => simp [lex, flushWord]
  | cons c cs ih =>
    rw [List.cons_append, lex, if_neg (h c (.head cs)), ih (c :: cur) fun d hd => h d (.tail c hd)]
    simp

theorem lex_calc_str (cs : List Char) (h : QuoteFree cs) :
    lex (.plain []) (['C', 'A', 'L', 'C', ' ', '"'] ++ cs ++ ['"']) =
      some [.word ['C', 'A', 'L', 'C'], .str cs] := by
  simp [lex, lex_str cs [] h, flushWord]

theorem mapM_asciiCode {cs : List Char} (h : ∀ c ∈ cs, c.toNat < 128) : cs.mapM asciiCode = some (cs.map Char.toNat) := by
  induction cs with
  | nil => rfl
  | cons c cs ih =>
    have hc : asciiCode c = some c.toNat := if_pos (h c (.head cs))
    rw [List.mapM_cons, hc, ih fun d hd => h d (.tail c hd)]
    rfl

/-- The mnemonic is read in upper case, and none before CALC in `readCommand` is spelt so. -/
theorem readCommand_calc (args : List Token) : readCommand ['C', 'A', 'L', 'C'] args = readCalc args := by
  have hupper : ['C', 'A', 'L', 'C'].map Char.toUpper = ['C', 'A', 'L', 'C'] := by decide
  simp only [readCommand, hupper]
  simp

/-! ### O56 and O57 -/

/-- Settles O56: each line's word by its fields, and the range checks of each operand. -/
theorem assemblerWordsAndRanges : Obligations.AssemblerWordsAndRanges := by
  refine ⟨fun n hn => ?imm32, fun n hn => ?wide32, fun n hn => ?imm8, fun n hn => ?wide8,
    fun fs hfs => ?flags, fun fs hfs => assembleLine_of_not_wf (decide_eq_false hfs), by decide, by decide,
    fun n => ?word64⟩
  case imm32 =>
    have hok := imm32Ok_of_lt hn
    have hword (o c : Byte) := congrArg (fun cw => some [cw]) (mkWord_imm32 o c hn)
    exact ⟨(assembleLine_of_wf (l := .setpoly n) hok).trans (hword 0x01 0),
      (assembleLine_of_wf (l := .setinit n) hok).trans (hword 0x02 0),
      (assembleLine_of_wf (l := .setxor n) hok).trans (hword 0x03 0),
      (assembleLine_of_wf (l := .reflect n) hok).trans (hword 0x22 0),
      (assembleLine_of_wf (l := .reflectB n) hok).trans (hword 0x22 1)⟩
  case wide32 =>
    have hbad := imm32Ok_of_ge hn
    exact ⟨assembleLine_of_not_wf hbad, assembleLine_of_not_wf hbad, assembleLine_of_not_wf hbad,
      assembleLine_of_not_wf hbad, assembleLine_of_not_wf hbad⟩
  case imm8 =>
    have hok := imm8Ok_of_lt hn
    have hword (o : Byte) := congrArg (fun cw => some [cw]) (mkWord_imm8 o hn)
    exact ⟨(assembleLine_of_wf (l := .data n) hok).trans (hword 0x11),
      (assembleLine_of_wf (l := .readcfg n) hok).trans (hword 0x20),
      (assembleLine_of_wf (l := .readlut n) hok).trans (hword 0x21)⟩
  case wide8 =>
    have hbad := imm8Ok_of_ge hn
    exact ⟨assembleLine_of_not_wf hbad, assembleLine_of_not_wf hbad, assembleLine_of_not_wf hbad⟩
  case flags => rw [assembleLine_of_wf (l := .configure fs) (decide_eq_true hfs), lineWords_configure]
  case word64 => simp [assembleLine, AsmLine.wf, imm64Ok, lineWords]

/-- Settles O57: line by line of the expansion; and the string's characters through the reader. -/
theorem pseudoInstructionsAreTheirExpansions : Obligations.PseudoInstructionsAreTheirExpansions := by
  refine ⟨assembleLine_config, assembleLine_calc, fun cs hcs => ?string⟩
  case string =>
    have hlex := lex_calc_str cs fun c hc => (hcs c hc).2
    have hread : readCalc [.str cs] = some (.calc (cs.map Char.toNat)) := by
      rw [readCalc, mapM_asciiCode fun c hc => (hcs c hc).1]
      rfl
    rw [readLine, hlex]
    simp only [readCommand_calc, hread]
    rfl

end Sys2Proof.Machine
end
